-- ==== Sys2Proof/Word.lean ====
section
/-!
DEFINITION. The word types of the string_hash CORE (spec/00_scope.md R7, R8): every value is an unsigned
integer of a stated width, bit 0 the least significant.
-/

namespace Sys2Proof

/-- `u8`, one byte of a buffer or of a value (R8). -/
abbrev Byte := BitVec 8

/-- `u32`: the digest, the seed, the register `H`, a buffer word (R6 `WD`, R8). -/
abbrev Word := BitVec 32

/-- `u64`: the data field of a command, the result field of a response (R8). -/
abbrev DWord := BitVec 64

/-- A command word `cmd[71:0]` (R61). -/
abbrev CmdWord := BitVec 72

/-- A response word `rsp[67:0]` (R63). -/
abbrev RspWord := BitVec 68

end Sys2Proof
end

