-- ==== Sys2Proof/Syntax.lean ====
section
/-!
DEFINITION. The commands (spec/30_encoding.md R64), the raw fields of a command word (R61), and the reasons
why a word encodes no command (R67).
-/

namespace Sys2Proof

/-- A command with its operands, one constructor per row of spec/opcode_table.json. An operand holds exactly
the bits of the command word that the command uses (R66): the ignored bits are no part of a command. -/
inductive Instr where
  /-- BSWAP32 (R94). -/
  | bswap32 (x32 : Word)
  /-- BSWAP64 (R95). -/
  | bswap64 (x64 : DWord)
  /-- HASH32 (R121). The view BUF is no operand: it is bound by the host. -/
  | hash32 (seed : Word)
  /-- SEED (R105). -/
  | seed (seed : Word)
  /-- ABSORB (R106). -/
  | absorb (w : Word)
  /-- TAIL (R107): `n` is the 2-bit count field, `w` all of `d[31:0]`; the block masks it. -/
  | tail (n : BitVec 2) (w : Word)
  /-- DIGEST (R108). -/
  | digest
deriving DecidableEq, Repr

/-- The command codes of R64. -/
inductive Op where
  | bswap32 | bswap64 | hash32 | seed | absorb | tail | digest
deriving DecidableEq, Repr

/-- The four fields of a command word (R61). -/
structure RawCommand where
  /-- `cmd[71:68]`, the operation code. -/
  op : BitVec 4
  /-- `cmd[67:66]`, reserved. -/
  rsv : BitVec 2
  /-- `cmd[65:64]`, the byte count of TAIL. -/
  n : BitVec 2
  /-- `cmd[63:0]`, the data operand. -/
  d : DWord
deriving DecidableEq, Repr

/-- Why a command word is illegal: the three causes of R67. They are not told apart in the response (R145);
where several hold, which one the decoder names is log 18. -/
inductive Illegal where
  /-- (a) `op` is `0x3` or `0x8` to `0xF`. -/
  | reservedOp
  /-- (b) `rsv` is not `00`. -/
  | reservedBits
  /-- (c) `n` is not `00` and `op` is not TAIL's. -/
  | countOutsideTail
deriving DecidableEq, Repr

end Sys2Proof
end

