-- ==== Sys2Proof/WellFormed.lean ====
section
/-!
DEFINITION. Which raw commands are legal, written from the list of illegal causes (spec/30_encoding.md R67).
The decoder of Decode.lean is written from the opcode map (R64, R65) and does not use this file.

An `Instr` needs no check of its own: its operands have the widths of the fields they come from, so every
term of the type is a command with a word (R66).
-/

namespace Sys2Proof

/-- R67 (a): `op` is `0x3` or `0x8` to `0xF`. -/
def RawCommand.opReserved (r : RawCommand) : Bool := r.op == 0x3#4 || decide (0x8#4 ≤ r.op)

/-- R67 (b): `rsv` is not `00`. -/
def RawCommand.rsvSet (r : RawCommand) : Bool := r.rsv != 0#2

/-- R67 (c): `n` is not `00` and `op` is not `0x6`. -/
def RawCommand.countMisplaced (r : RawCommand) : Bool := r.n != 0#2 && r.op != 0x6#4

/-- A raw command is legal when none of R67's causes holds. -/
def RawCommand.legal (r : RawCommand) : Bool := !(r.opReserved || r.rsvSet || r.countMisplaced)

end Sys2Proof
end

