-- ==== Sys2Proof/Decode.lean ====
section
/-!
DEFINITION. Decoding and encoding of command words (spec/30_encoding.md R61, R64 to R67, R70), and the opcode
table's match and mask pairs (R65), with the bit-field helpers they use.
-/

namespace Sys2Proof

/-- `zext_64` of a 32-bit value (R9). -/
def zext64 (v : Word) : DWord := v.setWidth 64

/-- `d[31:0]` of a 64-bit value (R7). -/
def low32 (d : DWord) : Word := d.extractLsb' 0 32

/-- Byte `j` of a value, `v[8j+7 : 8j]` (R7). -/
def byteOf {k : Nat} (j : Nat) (v : BitVec k) : Byte := v.extractLsb' (8 * j) 8

/-- The fields of a command word (R61). -/
def fieldsOf (w : CmdWord) : RawCommand where
  op := w.extractLsb' 68 4
  rsv := w.extractLsb' 66 2
  n := w.extractLsb' 64 2
  d := w.extractLsb' 0 64

/-- The control byte `ctl = {op, rsv, n}` of a command word, `cmd[71:64]` (R61). -/
def ctlOf (w : CmdWord) : Byte := w.extractLsb' 64 8

/-- The data field `d = cmd[63:0]` of a command word (R61). -/
def dataOf (w : CmdWord) : DWord := w.extractLsb' 0 64

/-- The opcode map (R64). -/
def opOf (op : BitVec 4) : Option Op :=
  match op.toNat with
  | 0x0 => some .bswap32
  | 0x1 => some .bswap64
  | 0x2 => some .hash32
  | 0x4 => some .seed
  | 0x5 => some .absorb
  | 0x6 => some .tail
  | 0x7 => some .digest
  | _ => none

/-- The control field of every command but TAIL must have `n = 00` (R61). -/
def withoutCount (r : RawCommand) (i : Instr) : Except Illegal Instr :=
  if r.n = 0#2 then .ok i else .error .countOutsideTail

/-- Decoding of the fields: the command with its operands (R66), or why there is none (R67). -/
def decodeFields (r : RawCommand) : Except Illegal Instr :=
  match opOf r.op with
  | none => .error .reservedOp
  | some op =>
    if r.rsv = 0#2 then
      match op with
      | .bswap32 => withoutCount r (.bswap32 (low32 r.d))
      | .bswap64 => withoutCount r (.bswap64 r.d)
      | .hash32 => withoutCount r (.hash32 (low32 r.d))
      | .seed => withoutCount r (.seed (low32 r.d))
      | .absorb => withoutCount r (.absorb (low32 r.d))
      | .tail => .ok (.tail r.n (low32 r.d))
      | .digest => withoutCount r .digest
    else .error .reservedBits

/-- The decoder, total on all `2^72` words (R65). -/
def decode (w : CmdWord) : Except Illegal Instr := decodeFields (fieldsOf w)

/-- The word of four fields: `{op, rsv, n, d}` (R61). -/
def wordOf (r : RawCommand) : CmdWord := r.op ++ r.rsv ++ r.n ++ r.d

/-- The fields of a command's word, with zero in every ignored field, as the assembler writes it (R70). -/
def encodeFields : Instr → RawCommand
  | .bswap32 x => ⟨0x0, 0, 0, zext64 x⟩
  | .bswap64 x => ⟨0x1, 0, 0, x⟩
  | .hash32 seed => ⟨0x2, 0, 0, zext64 seed⟩
  | .seed seed => ⟨0x4, 0, 0, zext64 seed⟩
  | .absorb w => ⟨0x5, 0, 0, zext64 w⟩
  | .tail n w => ⟨0x6, 0, n, zext64 w⟩
  | .digest => ⟨0x7, 0, 0, 0⟩

/-- The encoder: the word the assembler writes for a command (R70). -/
def encode (i : Instr) : CmdWord := wordOf (encodeFields i)

/-- One row of the machine-readable opcode table (R65). -/
structure OpcodeRow where
  op : Op
  mtch : CmdWord
  mask : CmdWord
deriving DecidableEq, Repr

/-- The seven rows of spec/opcode_table.json. -/
def opcodeTable : List OpcodeRow :=
  [ ⟨.bswap32, 0x000000000000000000, 0xFF0000000000000000⟩,
    ⟨.bswap64, 0x100000000000000000, 0xFF0000000000000000⟩,
    ⟨.hash32, 0x200000000000000000, 0xFF0000000000000000⟩,
    ⟨.seed, 0x400000000000000000, 0xFF0000000000000000⟩,
    ⟨.absorb, 0x500000000000000000, 0xFF0000000000000000⟩,
    ⟨.tail, 0x600000000000000000, 0xFC0000000000000000⟩,
    ⟨.digest, 0x700000000000000000, 0xFF0000000000000000⟩ ]

/-- `word & mask == match` (R65). -/
def OpcodeRow.selects (row : OpcodeRow) (w : CmdWord) : Bool := w &&& row.mask == row.mtch

/-- Which row of the table a command belongs to. -/
def opOfInstr : Instr → Op
  | .bswap32 _ => .bswap32
  | .bswap64 _ => .bswap64
  | .hash32 _ => .hash32
  | .seed _ => .seed
  | .absorb _ => .absorb
  | .tail _ _ => .tail
  | .digest => .digest

/-- The command word that a table word stands for: the table's low `nbits` bits, every higher bit 0. A
command word is one bit vector with no byte order of its own (R42, R61). -/
def cmdOfTableWord (nbits w : Nat) : CmdWord := BitVec.ofNat 72 (w % 2 ^ nbits)

/-- The command the decoder reads from a table word. -/
def decodeTableWord (nbits w : Nat) : Option Instr :=
  match decode (cmdOfTableWord nbits w) with
  | .ok i => some i
  | .error _ => none

end Sys2Proof
end

