-- ==== Sys2Proof/Config.lean ====
section
/-!
DEFINITION. The parameters of spec/00_scope.md R6 that a rule of the model reads.

The widths 32, 64, 72 and 68 stand in Word.lean as types. `WORD_BYTES` (4) and the little-endian `BYTE_ORDER`
stand in Machine/Ops.lean, in the reads of HASH32. `LENW` is OPEN: what depends on it (View.fits, State.wf)
takes it as an argument, and no step reads it (log 6). `T_BSWAP`, `T_STEP`, `T_MEM` have no value and no rule
depends on them (R169): the model has no time (log 16).
-/

namespace Sys2Proof.Config

/-- `K`, the multiplier of the mixing step (R100). Unaudited against the repository, normative as printed
(U8, log 12: UNVERIFIED). -/
def mixMultiplier : Word := 0xE22132C5#32

/-- `S`, the right-shift distance of the mixing step (R100; log 12). -/
def mixShift : Nat := 5

/-- `H_RESET`, the value of `H` after reset (R29, R160). -/
def hReset : Word := 0x00000000#32

/-- The default of the open parameter `LENW`, the width of `BUF.len` (R6, R40). -/
def lenwDefault : Nat := 32

/-- DESIGN CHOICE (log 5): what an offset of a view reads as when the view's canonical form lists no cell
for it. A form of writing bytes down, not a value the block makes up: Laws/Memory.lean shows that every byte
sequence has exactly one canonical form and reads back as itself. -/
def unlistedByte : Byte := 0x00#8

end Sys2Proof.Config
end

