-- ==== Sys2Proof/Machine/State.lean ====
section
/-!
DEFINITION. The state of one instance of the block (spec/10_state.md R20), the types of what crosses its ports
(R28; spec/30_encoding.md R60 to R63), and the state after reset (R29, R160).
-/

namespace Sys2Proof.Machine

/-- Bytes by offset, as (offset, byte) pairs. `Memory.wf` is the canonical form. -/
abbrev Memory := List Host.Cell

/-- Offsets strictly rising, none below `lo`, and no pair that repeats what an unlisted offset reads as. -/
def Memory.wfFrom (lo : Nat) : Memory → Bool
  | [] => true
  | (off, b) :: m => decide (lo ≤ off) && b != Config.unlistedByte && Memory.wfFrom (off + 1) m

/-- The canonical form of a memory (log 5). -/
def Memory.wf (m : Memory) : Bool := Memory.wfFrom 0 m

/-- The view BUF (R40): a length in bytes and the bytes at offsets `0 .. len - 1`. A view is total: an offset
below `len` that `cells` does not list reads `Config.unlistedByte` (log 5), so a length beyond the bytes cannot
be expressed (R53). -/
structure View where
  /-- `BUF.len`. Its bound, `2^LENW - 1`, is `View.fits` (log 6). -/
  len : Nat
  /-- The bytes that are not `Config.unlistedByte`. -/
  cells : Memory
deriving DecidableEq, Repr

/-- A view is in canonical form: its memory is, and no cell stands at or past the end. -/
def View.wf (v : View) : Bool := v.cells.wf && v.cells.all (fun c => decide (c.1 < v.len))

/-- `BUF.len` is a number of `lenw` bits (R40): the one rule that reads the open parameter `LENW`. -/
def View.fits (lenw : Nat) (v : View) : Bool := decide (v.len < 2 ^ lenw)

/-- One read of BUF: `n` bytes at offset `off` (R11, R41). -/
structure BufRead where
  off : Nat
  n : Nat
deriving DecidableEq, Repr

/-- The status of a response (R63): codes `0x2` to `0xF` are never produced (U12). -/
inductive Status where
  /-- `0x0`. -/
  | ok
  /-- `0x1` (R141). -/
  | illegalCmd
deriving DecidableEq, Repr

/-- A response (R63). -/
structure Response where
  status : Status
  r : DWord
deriving DecidableEq, Repr

/-- What the host can do at the ports between two commands (R172). -/
inductive HostMove where
  /-- Assert `rst` (R160). Also the reset that cuts a command short, in that command's place (R161, log 8). -/
  | reset
  /-- Bind a view: BUF becomes these bytes (R40, R163). -/
  | bind (bytes : List Byte)
  /-- Issue a command word, any of the `2^72` (R62). -/
  | command (w : CmdWord)
deriving DecidableEq, Repr

/-- The machine. `h` is the whole architectural state (R20). The other fields are the ports' (log 2): what R28
calls the inputs of a step, and the responses R171 calls the result of a run. -/
structure State where
  /-- The register `H` (R21). -/
  h : Word
  /-- The view BUF the host holds bound (R26, R28 (b)); no part of the block (log 4). -/
  buf : View
  /-- What the host has offered and the block has not taken, oldest first (R62, R171; log 1). -/
  inbox : List HostMove
  /-- The responses transferred so far, oldest first (R63, R171). -/
  sent : List Response
deriving DecidableEq, Repr

/-- Why the machine stops with a fault. -/
inductive Fault where
  /-- A read of BUF of no byte, of more than four, or past the end of the view, which R41 leaves without a
  meaning. Raised by a fold over reads (execHash32) only; safe: no rule calls MemRead so (R44), the reads
  HASH32 issues all lie inside the view (R122), and no value is invented (R143). -/
  | bufOffset
deriving DecidableEq, Repr

/-- Why the machine refuses to go on. -/
inductive Refusal where
  /-- An instruction without a meaning, raised by an arm of exec; safe. No arm raises it: every row of the
  opcode table has its meaning. -/
  | notModelled (mnemonic : String)
deriving DecidableEq, Repr

/-- The state right after reset (R29, R160): `H = H_RESET` and nothing in flight. No view is bound yet and
nothing is offered or answered (logs 1, 2, 3: DESIGN CHOICE). -/
def State.reset : State where
  h := Config.hReset
  buf := ⟨0, []⟩
  inbox := []
  sent := []

end Sys2Proof.Machine
end

