-- ==== Sys2Proof/Machine/Flags.lean ====
section
/-!
DEFINITION. The block has no flags, condition codes or predicates (spec/10_state.md R24): no command computes
one. What reports how a command went is the status field of its own response (spec/30_encoding.md R63), and
this file holds all of it: the codes, the response word, and the responses of spec/30_encoding.md R72.
-/

namespace Sys2Proof.Machine

/-- The status codes (R63, R140). -/
def Status.code : Status → BitVec 4
  | .ok => 0x0#4
  | .illegalCmd => 0x1#4

/-- The response word `rsp[67:0] = {status, r}` (R63). -/
def Response.word (r : Response) : RspWord := r.status.code ++ r.r

/-- `(0x0, r)`. -/
def Response.ok64 (r : DWord) : Response := ⟨.ok, r⟩

/-- `(0x0, zext_64(v))`: a 32-bit result, the upper half zero (R63). -/
def Response.ok32 (v : Word) : Response := ⟨.ok, zext64 v⟩

/-- `(0x1, 0)` (R141). -/
def Response.illegal : Response := ⟨.illegalCmd, 0⟩

end Sys2Proof.Machine
end

