-- ==== Sys2Proof/Machine/Operands.lean ====
section
/-!
DEFINITION. Operand forms that are more than a field of the command word (spec/30_encoding.md R66): the tail
mask of TAIL (spec/41_mixer_stream.md R104). The plain fields are taken in Decode.lean; the view of HASH32 is
read in Machine/Ops.lean.
-/

namespace Sys2Proof.Machine

/-- `tailmask(n) = 2^(8n) - 1` (R104). -/
def tailmask (n : BitVec 2) : Word := BitVec.ofNat 32 (2 ^ (8 * n.toNat) - 1)

/-- The word a tail of `n` bytes folds: `w & tailmask(n)` (R107). -/
def tailWord (n : BitVec 2) (w : Word) : Word := w &&& tailmask n

end Sys2Proof.Machine
end

