-- ==== Sys2Proof/Machine/Ops.lean ====
section
/-!
DEFINITION. The shared operations: the byte swaps (spec/40_byteswap.md), the mixing step
(spec/41_mixer_stream.md), reading BUF and folding it (spec/20_memory.md, spec/42_hash32_fold.md), the
register `H`, responses, taking the exception ILLEGAL_CMD (spec/60_exceptions.md) and reset
(spec/70_reset_and_hazards.md).
-/

namespace Sys2Proof.Machine

/-! ## Byte swaps -/

/-- `bswap32(x) = { x[7:0], x[15:8], x[23:16], x[31:24] }` (R90). -/
def bswap32 (x : Word) : Word :=
  x.extractLsb' 0 8 ++ x.extractLsb' 8 8 ++ x.extractLsb' 16 8 ++ x.extractLsb' 24 8

/-- `bswap64(x)`: the eight bytes of `x` in reversed order (R91). -/
def bswap64 (x : DWord) : DWord :=
  x.extractLsb' 0 8 ++ x.extractLsb' 8 8 ++ x.extractLsb' 16 8 ++ x.extractLsb' 24 8
    ++ x.extractLsb' 32 8 ++ x.extractLsb' 40 8 ++ x.extractLsb' 48 8 ++ x.extractLsb' 56 8

/-! ## The mixing step -/

/-- `a = x *_32 K`, the wrapping product (R101, R102), with the constant written first: the product commutes, and
a checker that unfolds it then never counts down from the constant. -/
def mixProduct (x : Word) : Word := Config.mixMultiplier * x

/-- `b = a ^ (a >> S)`, a logical shift (R101, R102). -/
def mixShiftXor (a : Word) : Word := a ^^^ (a >>> Config.mixShift)

/-- `mix(x)` (R101). -/
def mix (x : Word) : Word := bswap32 (mixShiftXor (mixProduct x))

/-- XOR a word into the running state, then mix (R106, R107, R121). -/
def foldWord (a w : Word) : Word := mix (a ^^^ w)

/-! ## The hash of a byte sequence -/

/-- The little-endian value of a byte sequence: the first byte is the least significant (R41, R120). -/
def leNat : List Byte → Nat
  | [] => 0
  | b :: bs => b.toNat + 2 ^ 8 * leNat bs

/-- The little-endian value of at most four bytes as a word, zero-extended (R120). -/
def leWord (bs : List Byte) : Word := BitVec.ofNat 32 (leNat bs)

/-- `hash32(b, s)` as R120's recursion on the byte sequence. HASH32 itself runs the loop of R121. -/
def hash32 : List Byte → Word → Word
  | [], s => s
  | b0 :: b1 :: b2 :: b3 :: rest, s => hash32 rest (foldWord s (leWord [b0, b1, b2, b3]))
  | tail, s => foldWord s (leWord tail)

/-! ## The view BUF -/

/-- The byte a memory holds at an offset. -/
def Memory.byteAt : Memory → Nat → Byte
  | [], _ => Config.unlistedByte
  | (a, b) :: m, off => if a = off then b else Memory.byteAt m off

/-- The canonical memory of a byte sequence that begins at an offset (log 5). -/
def Memory.ofBytesFrom (off : Nat) : List Byte → Memory
  | [] => []
  | b :: bs =>
    if b = Config.unlistedByte then Memory.ofBytesFrom (off + 1) bs
    else (off, b) :: Memory.ofBytesFrom (off + 1) bs

/-- The view of a byte sequence (R40). -/
def View.ofBytes (bytes : List Byte) : View := ⟨bytes.length, Memory.ofBytesFrom 0 bytes⟩

/-- `BUF.byte[off]`, for an offset below `BUF.len` only (R40, R47). -/
def View.byte? (v : View) (off : Nat) : Option Byte :=
  if off < v.len then some (v.cells.byteAt off) else none

/-- The byte sequence a view stands for (R40). -/
def View.bytes (v : View) : List Byte := (List.range v.len).map v.cells.byteAt

/-- `sum over j in 0 .. n-1 of byte(j) * 2^(8j)` (R41). -/
def leSum (byte : Nat → Byte) : Nat → Nat
  | 0 => 0
  | n + 1 => leSum byte n + 2 ^ (8 * n) * (byte n).toNat

/-- `MemRead(off, n)`, an unsigned integer of `8n` bits; not defined unless `1 <= n <= 4` and
`off + n <= BUF.len` (R41). It changes nothing (R46). -/
def memRead (v : View) (q : BufRead) : Option (BitVec (8 * q.n)) :=
  if 1 ≤ q.n ∧ q.n ≤ 4 ∧ q.off + q.n ≤ v.len then
    some (BitVec.ofNat (8 * q.n) (leSum (fun j => v.cells.byteAt (q.off + j)) q.n))
  else none

/-- The reads HASH32 issues for a view of `len` bytes, in order (R44, R122): the full words at offsets `4i`,
then, if `len mod 4` is not 0, the tail. -/
def hashReads (len : Nat) : List BufRead :=
  (List.range (len / 4)).map (fun i => ⟨4 * i, 4⟩)
    ++ (if len % 4 = 0 then [] else [⟨4 * (len / 4), len % 4⟩])

/-- Fold the words a list of reads returns into an accumulator (R121). -/
def foldReads (v : View) : List BufRead → Word → Option Word
  | [], a => some a
  | q :: qs, a =>
    match memRead v q with
    | none => none
    | some w => foldReads v qs (foldWord a (w.setWidth 32))

/-- The loop of HASH32 over a view, from a seed (R121). -/
def hashView (v : View) (seed : Word) : Option Word := foldReads v (hashReads v.len) seed

/-! ## The register, the ports -/

/-- `H <- v` (R10). -/
def State.writeH (s : State) (v : Word) : State := { s with h := v }

/-- `rsp <- r`: deliver the one response of the command (R12, R63). -/
def State.respond (s : State) (r : Response) : State := { s with sent := s.sent ++ [r] }

/-- The host binds a view (R40, R163). -/
def State.bindView (s : State) (bytes : List Byte) : State := { s with buf := View.ofBytes bytes }

/-- What the host still offers after the block has taken a move. -/
def State.withInbox (s : State) (moves : List HostMove) : State := { s with inbox := moves }

/-! ## The exception and reset -/

/-- Taking ILLEGAL_CMD (R141, R146): the response `(0x1, 0)` and nothing else; no state changes, no memory is
read, control goes nowhere. There is no return from it, because nothing is entered (R147). -/
def raiseIllegalCmd (s : State) : State := s.respond .illegal

/-- Reset (R160, R161): `H <- H_RESET`. No response; what was transferred before stays transferred; the view
is the host's and stays bound (log 4). -/
def resetBlock (s : State) : State := s.writeH Config.hReset

end Sys2Proof.Machine
end

