-- ==== Sys2Proof/Machine/ByteSwap.lean ====
section
/-! DEFINITION. The byte-swap commands (spec/40_byteswap.md R94, R95). -/

namespace Sys2Proof.Machine

/-- BSWAP32 (R94): `rsp <- (0x0, zext_64(bswap32(d[31:0])))`; `H` is neither read nor written. -/
def execBswap32 (x32 : Word) (s : State) : Host.Outcome State Fault Refusal :=
  .next (s.respond (.ok32 (bswap32 x32)))

/-- BSWAP64 (R95): `rsp <- (0x0, bswap64(d))`; `H` is neither read nor written. -/
def execBswap64 (x64 : DWord) (s : State) : Host.Outcome State Fault Refusal :=
  .next (s.respond (.ok64 (bswap64 x64)))

end Sys2Proof.Machine
end

