-- ==== Sys2Proof/Machine/Hash.lean ====
section
/-! DEFINITION. The command HASH32 (spec/42_hash32_fold.md R121). -/

namespace Sys2Proof.Machine

/-- HASH32 (R121): fold the whole view from the seed, write the digest to `H`, respond with it. The old `H`
is not read. The fault stands for a read outside the view; HASH32 makes none (R122, R127). -/
def execHash32 (seed : Word) (s : State) : Host.Outcome State Fault Refusal :=
  match hashView s.buf seed with
  | some a => .next ((s.writeH a).respond (.ok32 a))
  | none => .fault .bufOffset

end Sys2Proof.Machine
end

