-- ==== Sys2Proof/Machine/Stream.lean ====
section
/-! DEFINITION. The streaming commands (spec/41_mixer_stream.md R105 to R108). -/

namespace Sys2Proof.Machine

/-- SEED (R105): `H <- d[31:0]`; no mixing step. -/
def execSeed (seed : Word) (s : State) : Host.Outcome State Fault Refusal :=
  .next ((s.writeH seed).respond (.ok32 seed))

/-- ABSORB (R106): `H <- mix(H ^ d[31:0])`; the response is `H` after the write. -/
def execAbsorb (w : Word) (s : State) : Host.Outcome State Fault Refusal :=
  .next ((s.writeH (foldWord s.h w)).respond (.ok32 (foldWord s.h w)))

/-- `H` after a TAIL (R107): no mixing step when `n = 0`. -/
def tailState (n : BitVec 2) (w h : Word) : Word :=
  if n = 0#2 then h else foldWord h (tailWord n w)

/-- TAIL (R107): fold the `n` tail bytes of `w`; the response is `H` after the command. -/
def execTail (n : BitVec 2) (w : Word) (s : State) : Host.Outcome State Fault Refusal :=
  .next ((s.writeH (tailState n w s.h)).respond (.ok32 (tailState n w s.h)))

/-- DIGEST (R108): `rsp <- (0x0, zext_64(H))`; `H` is not written. -/
def execDigest (s : State) : Host.Outcome State Fault Refusal :=
  .next (s.respond (.ok32 s.h))

end Sys2Proof.Machine
end

