-- ==== Sys2Proof/Machine/Dispatch.lean ====
section
/-! DEFINITION. exec: one arm per command. -/

namespace Sys2Proof.Machine

/-- The meaning of a command (spec/30_encoding.md R72). -/
def exec (i : Instr) (s : State) : Host.Outcome State Fault Refusal :=
  match i with
  -- spec/40_byteswap.md
  | .bswap32 x32 => Sys2Proof.Machine.execBswap32 x32 s
  | .bswap64 x64 => Sys2Proof.Machine.execBswap64 x64 s
  -- spec/42_hash32_fold.md
  | .hash32 seed => Sys2Proof.Machine.execHash32 seed s
  -- spec/41_mixer_stream.md
  | .seed seed => Sys2Proof.Machine.execSeed seed s
  | .absorb w => Sys2Proof.Machine.execAbsorb w s
  | .tail n w => Sys2Proof.Machine.execTail n w s
  | .digest => Sys2Proof.Machine.execDigest s

end Sys2Proof.Machine
end

