-- ==== Sys2Proof/Machine/Step.lean ====
section
/-!
DEFINITION. One step: the block takes the oldest move the host has offered (spec/30_encoding.md R62,
spec/70_reset_and_hazards.md R171, R172).
-/

namespace Sys2Proof.Machine

/-- One command word, decoded as it stands on the port (R51, R62): the command's meaning, or ILLEGAL_CMD
(R67, R141). -/
def runWord (w : CmdWord) (s : State) : Host.Outcome State Fault Refusal :=
  match decode w with
  | .ok i => exec i s
  | .error _ => .next (raiseIllegalCmd s)

/-- One step. With nothing offered the block is idle and keeps everything (R153, R171; log 7). -/
def step (s : State) : Host.Outcome State Fault Refusal :=
  match s.inbox with
  | [] => .next s
  | .reset :: rest => .next (resetBlock (s.withInbox rest))
  | .bind bytes :: rest => .next ((s.withInbox rest).bindView bytes)
  | .command w :: rest => runWord w (s.withInbox rest)

/-- The host offers a table word as the next command, before anything it has offered already (log 1). -/
def State.withFetchWord (s : State) (nbits w : Nat) : State :=
  s.withInbox (.command (cmdOfTableWord nbits w) :: s.inbox)

end Sys2Proof.Machine
end

