-- ==== Sys2Proof/Safety.lean ====
section
/-!
DEFINITION. The terms the statements use: well-formed states, runs over everything the host has offered
(spec/70_reset_and_hazards.md R171), and the host's streams (spec/41_mixer_stream.md R109,
spec/42_hash32_fold.md R125).

A run is safe when it answers a next state: the machine has no other good end, and the block's one exception,
ILLEGAL_CMD, is a next state too (R142).
-/

namespace Sys2Proof.Machine

/-- A view the host offers to bind has a length of `lenw` bits (R40, R172). -/
def HostMove.fits (lenw : Nat) : HostMove → Bool
  | .reset => true
  | .bind bytes => decide (bytes.length < 2 ^ lenw)
  | .command _ => true

/-- A well-formed state for buffer lengths of `lenw` bits: the bound view is in canonical form and fits, and
so does every view the host still offers. -/
def State.wf (lenw : Nat) (s : State) : Bool :=
  s.buf.wf && s.buf.fits lenw && s.inbox.all (HostMove.fits lenw)

/-- Run until everything the host has offered is taken (R171). -/
def State.serve (s : State) : Host.Outcome State Fault Refusal := Sys2Proof.core.run s.inbox.length s

/-- The move binds a view. -/
def HostMove.isBind : HostMove → Bool
  | .bind _ => true
  | _ => false

/-- The move issues a command word. -/
def HostMove.isCommand : HostMove → Bool
  | .command _ => true
  | _ => false

/-- R109: a command word that a stream does not notice: BSWAP32, BSWAP64, DIGEST or an illegal word. -/
def neutralWord (w : CmdWord) : Bool :=
  match decode w with
  | .ok (.bswap32 _) => true
  | .ok (.bswap64 _) => true
  | .ok .digest => true
  | .ok (.hash32 _) => false
  | .ok (.seed _) => false
  | .ok (.absorb _) => false
  | .ok (.tail _ _) => false
  | .error _ => true

/-- The host offers commands, as the assembler writes them (R70). -/
def issue (is : List Instr) : List HostMove := is.map (fun i => .command (encode i))

/-- One ABSORB for every full word of a byte sequence: word `i` is its bytes `4i .. 4i+3`, little-endian
(R106, R125, R167). -/
def absorbs (b : List Byte) : List Instr :=
  (List.range (b.length / 4)).map (fun i => .absorb (leWord ((b.drop (4 * i)).take 4)))

/-- The bytes after the last full word (R120). -/
def tailBytes (b : List Byte) : List Byte := b.drop (4 * (b.length / 4))

end Sys2Proof.Machine
end

