-- ==== Sys2Proof/Certificates/Slice0/Obligations.lean ====
section
/-!
DEFINITION. The statements for the provers. Each docstring names the rule of spec/ it formalises; where a
clause is the model's choice it says so and names the log entry.

A command word is written `ctl ++ d`: control byte and data (spec/30_encoding.md R61), so that a statement
about a command covers every data field and says what becomes of the ignored bits.
-/

open Sys2Proof Sys2Proof.Machine

/-! ## Encoding -/

/-- Words written out in spec/95_test_vectors.md decode to the commands they stand for (R65, R66). A sanity
check. -/
def Obligations.SpecWordsDecode : Prop :=
  decode 0x000000000001020304 = .ok (.bswap32 0x01020304)
  ∧ decode 0x100102030405060708 = .ok (.bswap64 0x0102030405060708)
  ∧ decode 0x20000000009033E3FD = .ok (.hash32 0x9033E3FD)
  ∧ decode 0x40FFFFFFFF00000000 = .ok (.seed 0)
  ∧ decode 0x50000000006C6C6568 = .ok (.absorb 0x6C6C6568)
  ∧ decode 0x6100000000FFFFFF65 = .ok (.tail 1 0xFFFFFF65)
  ∧ decode 0x70DEADBEEFDEADBEEF = .ok .digest
  ∧ decode 0x300000000064636261 = .error .reservedOp
  ∧ decode 0x040000000001020304 = .error .reservedBits
  ∧ decode 0x510000000064636261 = .error .countOutsideTail

/-- Decoding the assembler's word of a command (R70) gives the command back, for every operand value (R66). -/
def Obligations.DecodeOfEncode : Prop :=
  ∀ i : Instr, decode (encode i) = .ok i

/-- The assembler's word of a decoded command (R70) is the word it came from with `d[63:32]` cleared (all of
`d` for DIGEST, nothing for BSWAP64) and no other bit changed. The `w` of a TAIL is all of `d[31:0]`: its bytes
`n` to 3, which R66 also calls ignored, are kept. -/
def Obligations.EncodeOfDecodeClearsUpperData : Prop :=
  ∀ (w : CmdWord) (i : Instr), decode w = .ok i →
    encode i = w &&&
      (match opOfInstr i with
       | .bswap64 => 0xFFFFFFFFFFFFFFFFFF
       | .digest => 0xFF0000000000000000
       | _ => 0xFF00000000FFFFFFFF)

/-- R65: a word is legal exactly when its control byte is one of the ten of the table, which are pairwise
different; the seven (match, mask) pairs select exactly the words of their commands and disjoint sets; the
control byte says which command, and for TAIL which `n`; the data field does not matter. -/
def Obligations.ControlByteDecidesLegality : Prop :=
  (∀ w : CmdWord, (∃ i, decode w = .ok i) ↔
    w.extractLsb' 64 8 ∈ ([0x00, 0x10, 0x20, 0x40, 0x50, 0x60, 0x61, 0x62, 0x63, 0x70] : List Byte))
  ∧ ([0x00, 0x10, 0x20, 0x40, 0x50, 0x60, 0x61, 0x62, 0x63, 0x70] : List Byte).Nodup
  ∧ (∀ (w : CmdWord) (row : OpcodeRow), row ∈ opcodeTable →
      (w &&& row.mask = row.mtch ↔ ∃ i, decode w = .ok i ∧ opOfInstr i = row.op))
  ∧ (∀ (w : CmdWord) (r₁ r₂ : OpcodeRow), r₁ ∈ opcodeTable → r₂ ∈ opcodeTable →
      w &&& r₁.mask = r₁.mtch → w &&& r₂.mask = r₂.mtch → r₁ = r₂)
  ∧ (∀ (w : CmdWord) (i : Instr), decode w = .ok i →
      w.extractLsb' 64 8 =
        (match i with
         | .bswap32 _ => 0x00
         | .bswap64 _ => 0x10
         | .hash32 _ => 0x20
         | .seed _ => 0x40
         | .absorb _ => 0x50
         | .tail n _ => 0x60 + n.setWidth 8
         | .digest => 0x70 : Byte))

/-- R67 and R141: a word is illegal exactly for the three causes, and then, whatever the state, the block
consumes it, changes nothing and answers `0x1_0000000000000000`; what it answered before and what is still
offered stand as they were. -/
def Obligations.IllegalWordIsAnsweredAndHarmless : Prop :=
  ∀ w : CmdWord,
    ((∃ e, decode w = .error e) ↔
      ((w.extractLsb' 68 4 = 0x3#4 ∨ 0x8#4 ≤ w.extractLsb' 68 4)
        ∨ w.extractLsb' 66 2 ≠ 0#2
        ∨ (w.extractLsb' 64 2 ≠ 0#2 ∧ w.extractLsb' 68 4 ≠ 0x6#4)))
    ∧ (((w.extractLsb' 68 4 = 0x3#4 ∨ 0x8#4 ≤ w.extractLsb' 68 4)
        ∨ w.extractLsb' 66 2 ≠ 0#2
        ∨ (w.extractLsb' 64 2 ≠ 0#2 ∧ w.extractLsb' 68 4 ≠ 0x6#4)) →
      ∀ (s : State) (rest : List HostMove), ∃ r : Response,
        r.word = 0x10000000000000000#68 ∧
        step (s.withInbox (.command w :: rest)) =
          .next { h := s.h, buf := s.buf, inbox := rest, sent := s.sent ++ [r] })

/-- R66: the operands are the bits the table says, and the ignored bits change neither the next state nor the
response: two words with the same control byte that agree on the used data bits do the same. -/
def Obligations.OperandsAndIgnoredBits : Prop :=
  (∀ d : DWord,
    decode (0x00#8 ++ d) = .ok (.bswap32 (d.extractLsb' 0 32))
    ∧ decode (0x10#8 ++ d) = .ok (.bswap64 d)
    ∧ decode (0x20#8 ++ d) = .ok (.hash32 (d.extractLsb' 0 32))
    ∧ decode (0x40#8 ++ d) = .ok (.seed (d.extractLsb' 0 32))
    ∧ decode (0x50#8 ++ d) = .ok (.absorb (d.extractLsb' 0 32))
    ∧ (∀ n : BitVec 2, decode (0b011000#6 ++ n ++ d) = .ok (.tail n (d.extractLsb' 0 32)))
    ∧ decode (0x70#8 ++ d) = .ok .digest)
  ∧ (∀ (s : State) (rest : List HostMove) (ctl : Byte) (d d' : DWord),
      (∀ k : Nat, k <
          (if ctl = 0x10#8 then 64
           else if ctl = 0x70#8 then 0
           else if ctl.extractLsb' 2 6 = 0b011000#6 then 8 * (ctl.extractLsb' 0 2).toNat
           else 32) → d.getLsbD k = d'.getLsbD k) →
      step (s.withInbox (.command (ctl ++ d) :: rest)) = step (s.withInbox (.command (ctl ++ d') :: rest)))

/-! ## The step -/

/-- A step at a state whose next offered move is a legal command word is `exec` of the command at that state
with the word taken (R62). Nothing else happens around it. -/
def Obligations.StepRunsDecodedCommand : Prop :=
  ∀ (s : State) (w : CmdWord) (rest : List HostMove) (i : Instr),
    s.inbox = .command w :: rest → decode w = .ok i → step s = exec i { s with inbox := rest }

/-- What a step does with the host's other moves. Reset: `H` is 0 and there is no response (R160). Binding:
the view has the bytes bound, each at its offset, and nothing past them (R40); that a binding is a move of its
own, and that reset leaves the view bound, are log 4 (DESIGN CHOICE). Nothing offered: nothing changes (log 7,
DEDUCED). -/
def Obligations.StepOnResetBindAndIdle : Prop :=
  ∀ (s : State) (rest : List HostMove),
    step (s.withInbox (.reset :: rest)) = .next { h := 0, buf := s.buf, inbox := rest, sent := s.sent }
    ∧ (∀ bytes : List Byte, ∃ v : View, v.len = bytes.length ∧ (∀ off, v.byte? off = bytes[off]?) ∧
        step (s.withInbox (.bind bytes :: rest)) =
          .next { h := s.h, buf := v, inbox := rest, sent := s.sent })
    ∧ step (s.withInbox []) = .next (s.withInbox [])

/-- R31 and R142: no legal command raises an exception, whatever the operands, the state and the view, and
every state has an outcome that is a next state, with one response for every command word. -/
def Obligations.EveryCommandCompletes : Prop :=
  (∀ (i : Instr) (s : State), ∃ t r, exec i s = .next t ∧ t.sent = s.sent ++ [⟨.ok, r⟩])
  ∧ (∀ s : State, ∃ t, step s = .next t)
  ∧ (∀ (s : State) (w : CmdWord) (rest : List HostMove), ∃ t r,
      step (s.withInbox (.command w :: rest)) = .next t ∧ t.sent = s.sent ++ [r])

/-- R63: every command word, legal or not, produces exactly one response, after those already sent; its word
carries the status in bits 67 to 64 and `r` in bits 63 to 0; the status is `0x0` for a legal word and `0x1`
for an illegal one, never another; a 32-bit result has a zero upper half. -/
def Obligations.OneResponsePerCommandWord : Prop :=
  ∀ (s : State) (w : CmdWord) (rest : List HostMove), ∃ t r,
    step (s.withInbox (.command w :: rest)) = .next t
    ∧ t.sent = s.sent ++ [r]
    ∧ r.word.extractLsb' 0 64 = r.r
    ∧ (∀ i, decode w = .ok i → r.word.extractLsb' 64 4 = 0x0#4)
    ∧ (∀ e, decode w = .error e → r.word.extractLsb' 64 4 = 0x1#4)
    ∧ (w.extractLsb' 64 8 ≠ 0x10#8 → r.word.extractLsb' 32 32 = 0#32)

/-- Invariant: for every width `lenw` of `BUF.len`, a step keeps a state well-formed: the bound view in
canonical form (log 5), no byte at or past its length, its length and every offered view's below `2^lenw`
(R40). -/
def Obligations.StepKeepsStateWellFormed : Prop :=
  ∀ (lenw : Nat) (s t : State), s.wf lenw = true → step s = .next t → t.wf lenw = true

/-- The reset state is well-formed at every width of `BUF.len`. -/
def Obligations.ResetIsWellFormed : Prop :=
  ∀ lenw : Nat, State.reset.wf lenw = true

/-- R21: `H` changes only at a reset, SEED, ABSORB, TAIL with `n` not 0, or HASH32. -/
def Obligations.OnlyItsWritersChangeH : Prop :=
  ∀ s t : State, step s = .next t → t.h ≠ s.h →
    ∃ m rest, s.inbox = m :: rest ∧
      (m = .reset
       ∨ ∃ w i, m = .command w ∧ decode w = .ok i ∧
          ((∃ x, i = .seed x) ∨ (∃ x, i = .absorb x) ∨ (∃ n x, i = .tail n x ∧ n ≠ 0#2)
            ∨ ∃ x, i = .hash32 x))

/-- Frame of every command: when `exec` gives a next state, the view and every byte of it, what is still
offered, and every earlier response are as before, and one OK response is added; BSWAP32, BSWAP64, DIGEST and
TAIL with `n = 0` leave `H` too (R21, R24, R45). -/
def Obligations.CommandFrame : Prop :=
  ∀ (i : Instr) (s t : State), exec i s = .next t →
    t.buf = s.buf ∧ (∀ off, t.buf.byte? off = s.buf.byte? off) ∧ t.inbox = s.inbox
    ∧ (∃ r, t.sent = s.sent ++ [⟨.ok, r⟩])
    ∧ (((∃ x, i = .bswap32 x) ∨ (∃ x, i = .bswap64 x) ∨ i = .digest ∨ (∃ x, i = .tail 0#2 x)) →
        t.h = s.h)

/-- Only HASH32 reads BUF (R26, R44): any other command does the same whatever view is bound. -/
def Obligations.OnlyHashReadsTheView : Prop :=
  ∀ (i : Instr) (s : State) (v : View), (∀ seed, i ≠ .hash32 seed) → ∃ t,
    exec i s = .next t ∧ exec i { s with buf := v } = .next { t with buf := v }

/-! ## The byte swaps -/

/-- R90: byte `j` of `bswap32(x)` is byte `3 - j` of `x`; the function is the shift-mask-or form. -/
def Obligations.Bswap32ReversesBytes : Prop :=
  ∀ x : Word,
    (∀ j, j < 4 → byteOf j (bswap32 x) = byteOf (3 - j) x)
    ∧ bswap32 x = (((x <<< 24) &&& 0xFF000000) ||| ((x <<< 8) &&& 0x00FF0000))
        ||| (((x >>> 8) &&& 0x0000FF00) ||| ((x >>> 24) &&& 0x000000FF))

/-- R91: byte `j` of `bswap64(x)` is byte `7 - j` of `x`. -/
def Obligations.Bswap64ReversesBytes : Prop :=
  ∀ (x : DWord) (j : Nat), j < 8 → byteOf j (bswap64 x) = byteOf (7 - j) x

/-- R92: both byte swaps are involutions and bijections; their fixed points are the values whose byte sequence
is a palindrome; bit `k` of byte `j` goes to bit `k` of byte `3 - j`, or `7 - j`. -/
def Obligations.ByteSwapsAreInvolutions : Prop :=
  (∀ x : Word, bswap32 (bswap32 x) = x) ∧ Function.Bijective bswap32
  ∧ (∀ x : DWord, bswap64 (bswap64 x) = x) ∧ Function.Bijective bswap64
  ∧ (∀ x : Word, bswap32 x = x ↔ ∀ j, j < 4 → byteOf j x = byteOf (3 - j) x)
  ∧ (∀ x : DWord, bswap64 x = x ↔ ∀ j, j < 8 → byteOf j x = byteOf (7 - j) x)
  ∧ (∀ (x : Word) (j k : Nat), j < 4 → k < 8 →
      (bswap32 x).getLsbD (8 * (3 - j) + k) = x.getLsbD (8 * j + k))
  ∧ (∀ (x : DWord) (j k : Nat), j < 8 → k < 8 →
      (bswap64 x).getLsbD (8 * (7 - j) + k) = x.getLsbD (8 * j + k))

/-- How the two widths are related (R96). R96's last clause, that the two commands' results on one 32-bit
operand differ, is stated for operands that are not 0: on 0 both give 0. -/
def Obligations.Bswap64FromBswap32 : Prop :=
  (∀ x : DWord, bswap64 x = bswap32 (x.extractLsb' 0 32) ++ bswap32 (x.extractLsb' 32 32))
  ∧ (∀ y : Word, bswap64 (y.setWidth 64) = (bswap32 y).setWidth 64 <<< 32)
  ∧ (∀ y : Word, y ≠ 0 → bswap64 (y.setWidth 64) ≠ (bswap32 y).setWidth 64)

/-- R94: BSWAP32 answers the four bytes of `d[31:0]` reversed, whatever `d[63:32]`, and changes no state. The
result is written with the shift-mask-or form of R90. -/
def Obligations.Bswap32Command : Prop :=
  (∀ (x : Word) (s : State), exec (.bswap32 x) s =
    .next { s with sent := s.sent ++ [⟨.ok,
      ((((x <<< 24) &&& 0xFF000000) ||| ((x <<< 8) &&& 0x00FF0000))
        ||| (((x >>> 8) &&& 0x0000FF00) ||| ((x >>> 24) &&& 0x000000FF))).setWidth 64⟩] })
  ∧ (∀ (s : State) (rest : List HostMove) (d : DWord),
    step (s.withInbox (.command (0x00#8 ++ d) :: rest)) =
      .next { h := s.h, buf := s.buf, inbox := rest,
              sent := s.sent ++ [⟨.ok, (bswap32 (d.extractLsb' 0 32)).setWidth 64⟩] })

/-- R95: BSWAP64 answers the eight bytes of `d` reversed and changes no state. The result is given byte by
byte. -/
def Obligations.Bswap64Command : Prop :=
  (∀ (x : DWord) (s : State), ∃ r : DWord, (∀ j, j < 8 → byteOf j r = byteOf (7 - j) x) ∧
    exec (.bswap64 x) s = .next { s with sent := s.sent ++ [⟨.ok, r⟩] })
  ∧ (∀ (s : State) (rest : List HostMove) (d : DWord),
    step (s.withInbox (.command (0x10#8 ++ d) :: rest)) =
      .next { h := s.h, buf := s.buf, inbox := rest, sent := s.sent ++ [⟨.ok, bswap64 d⟩] })

/-! ## The mixing step and the streaming commands -/

/-- R101: `mix` in the arithmetic of natural numbers: the product modulo `2^32`, XOR with itself divided by
32, and the bytes reversed. -/
def Obligations.MixArithmetic : Prop :=
  ∀ x : Word, ∃ a b : Nat,
    a = 0xE22132C5 * x.toNat % 2 ^ 32
    ∧ b = a ^^^ (a / 32)
    ∧ ∀ j, j < 4 → (byteOf j (mix x)).toNat = b / 256 ^ (3 - j) % 256

/-- R103: `mix` is a bijection, with its three inverse steps; `mix(0) = 0`, so an all-zero buffer hashes to 0
from seed 0; for a fixed word the map of the state, and for a fixed state the map of the word, are bijections. -/
def Obligations.MixIsBijective : Prop :=
  Function.Bijective mix
  ∧ (0xE22132C5#32 * 0x48657C0D#32 = 1#32)
  ∧ (∀ a b : Word, b = a ^^^ (a >>> 5) →
      a = b ^^^ (b >>> 5) ^^^ (b >>> 10) ^^^ (b >>> 15) ^^^ (b >>> 20) ^^^ (b >>> 25) ^^^ (b >>> 30))
  ∧ mix 0 = 0
  ∧ (∀ k, hash32 (List.replicate k 0) 0 = 0)
  ∧ (∀ w : Word, Function.Bijective (fun h : Word => mix (h ^^^ w)))
  ∧ (∀ h : Word, Function.Bijective (fun w : Word => mix (h ^^^ w)))

/-- R104: `tailmask(n)` is `2^(8n) - 1`, and masking keeps bytes 0 to `n - 1` and clears the rest. -/
def Obligations.TailMaskKeepsLowBytes : Prop :=
  ∀ n : BitVec 2, (tailmask n).toNat = 2 ^ (8 * n.toNat) - 1
    ∧ ∀ (w : Word) (j : Nat), j < 4 → byteOf j (w &&& tailmask n) = if j < n.toNat then byteOf j w else 0

/-- R105: SEED writes its operand to `H`, whatever `d[63:32]`, and answers it; no mixing step. A DIGEST after
it answers the seed. -/
def Obligations.SeedCommand : Prop :=
  (∀ (x : Word) (s : State), exec (.seed x) s =
    .next { s with h := x, sent := s.sent ++ [⟨.ok, x.setWidth 64⟩] })
  ∧ (∀ (s : State) (rest : List HostMove) (d : DWord),
    step (s.withInbox (.command (0x40#8 ++ d) :: rest)) =
      .next { h := d.extractLsb' 0 32, buf := s.buf, inbox := rest,
              sent := s.sent ++ [⟨.ok, (d.extractLsb' 0 32).setWidth 64⟩] })
  ∧ (∀ (s : State) (d d' : DWord), ∃ t r,
    (s.withInbox [.command (0x40#8 ++ d), .command (0x70#8 ++ d')]).serve = .next t
    ∧ t.h = d.extractLsb' 0 32
    ∧ t.sent = s.sent ++ [r, ⟨.ok, (d.extractLsb' 0 32).setWidth 64⟩])

/-- R106: ABSORB XORs its word into `H` and mixes once, whatever `d[63:32]`, and answers the new `H`. -/
def Obligations.AbsorbCommand : Prop :=
  (∀ (w : Word) (s : State), exec (.absorb w) s =
    .next { s with h := mix (s.h ^^^ w), sent := s.sent ++ [⟨.ok, (mix (s.h ^^^ w)).setWidth 64⟩] })
  ∧ (∀ (s : State) (rest : List HostMove) (d : DWord),
    step (s.withInbox (.command (0x50#8 ++ d) :: rest)) =
      .next { h := mix (s.h ^^^ d.extractLsb' 0 32), buf := s.buf, inbox := rest,
              sent := s.sent ++ [⟨.ok, (mix (s.h ^^^ d.extractLsb' 0 32)).setWidth 64⟩] })

/-- R107: TAIL with `n` from 1 to 3 XORs the low `n` bytes of its word into `H` and mixes once; with `n = 0`
it leaves `H`; it answers `H` after the command, whatever the bits above. -/
def Obligations.TailCommand : Prop :=
  (∀ (n : BitVec 2) (w : Word) (s : State), ∃ h' : Word,
    exec (.tail n w) s = .next { s with h := h', sent := s.sent ++ [⟨.ok, h'.setWidth 64⟩] }
    ∧ (n = 0#2 → h' = s.h)
    ∧ (n ≠ 0#2 → h' = mix (s.h ^^^ BitVec.ofNat 32 (w.toNat % 2 ^ (8 * n.toNat)))))
  ∧ (∀ (s : State) (rest : List HostMove) (n : BitVec 2) (d : DWord), ∃ h' : Word,
    step (s.withInbox (.command (0b011000#6 ++ n ++ d) :: rest)) =
      .next { h := h', buf := s.buf, inbox := rest, sent := s.sent ++ [⟨.ok, h'.setWidth 64⟩] }
    ∧ (n = 0#2 → h' = s.h)
    ∧ (n ≠ 0#2 → h' = mix (s.h ^^^ (d.extractLsb' 0 32 &&& tailmask n))))

/-- R108: DIGEST answers `H`, whatever `d`, and writes nothing; repeated, it answers the same. -/
def Obligations.DigestCommand : Prop :=
  (∀ s : State, exec .digest s = .next { s with sent := s.sent ++ [⟨.ok, s.h.setWidth 64⟩] })
  ∧ (∀ (s : State) (rest : List HostMove) (d : DWord),
    step (s.withInbox (.command (0x70#8 ++ d) :: rest)) =
      .next { h := s.h, buf := s.buf, inbox := rest, sent := s.sent ++ [⟨.ok, s.h.setWidth 64⟩] })
  ∧ (∀ (s : State) (d : Nat → DWord) (k : Nat), ∃ t,
    (s.withInbox ((List.range k).map (fun j => .command (0x70#8 ++ d j)))).serve = .next t
    ∧ t.h = s.h ∧ t.sent = s.sent ++ List.replicate k ⟨.ok, s.h.setWidth 64⟩)

/-- R109: the state after any list of command words in which, BSWAP32, BSWAP64, DIGEST and illegal words left
out, `k` ABSORBs and then at most one TAIL remain: the words folded in order, then the masked tail word. -/
def Obligations.StreamedState : Prop :=
  ∀ (s : State) (ws : List CmdWord) (xs : List Word),
    ((ws.filter (fun w => !neutralWord w)).map decode = xs.map (fun x => .ok (.absorb x)) →
      ∃ t, (s.withInbox (ws.map .command)).serve = .next t
        ∧ t.h = xs.foldl (fun h x => mix (h ^^^ x)) s.h)
    ∧ (∀ (n : BitVec 2) (x : Word),
      (ws.filter (fun w => !neutralWord w)).map decode
          = xs.map (fun x => .ok (.absorb x)) ++ [.ok (.tail n x)] →
      ∃ t, (s.withInbox (ws.map .command)).serve = .next t
        ∧ t.h = if n = 0#2 then xs.foldl (fun h x => mix (h ^^^ x)) s.h
                else mix (xs.foldl (fun h x => mix (h ^^^ x)) s.h ^^^ (x &&& tailmask n)))

/-! ## The view and HASH32 -/

/-- R41: inside the view `MemRead(off, n)` is the sum of the bytes times `2^(8j)`, byte `j` of it the byte at
`off + j`; elsewhere it is not defined. -/
def Obligations.MemReadIsLittleEndian : Prop :=
  ∀ (v : View) (off n : Nat),
    (1 ≤ n → n ≤ 4 → off + n ≤ v.len → ∃ x : BitVec (8 * n), memRead v ⟨off, n⟩ = some x
      ∧ x.toNat = ∑ j ∈ Finset.range n, 2 ^ (8 * j) * (v.cells.byteAt (off + j)).toNat
      ∧ ∀ j, j < n → v.byte? (off + j) = some (byteOf j x))
    ∧ ((n = 0 ∨ 4 < n ∨ v.len < off + n) → memRead v ⟨off, n⟩ = none)

/-- R122 (and the extent rule of R44): the reads HASH32 issues. The first `floor(len/4)` are 4 bytes at `4i`;
if `len mod 4` is not 0 one more follows, of that many bytes at `4 * floor(len/4)`; every read is of 1 to 4
bytes inside the view, so it is defined on every view of that length; together they take every offset below
`len` exactly once, in ascending order. -/
def Obligations.HashReadsCoverTheView : Prop :=
  ∀ len : Nat,
    (hashReads len).length = (len + 3) / 4
    ∧ (∀ i, i < len / 4 → (hashReads len)[i]? = some ⟨4 * i, 4⟩)
    ∧ (len % 4 ≠ 0 → (hashReads len)[len / 4]? = some ⟨4 * (len / 4), len % 4⟩)
    ∧ (∀ q ∈ hashReads len, 1 ≤ q.n ∧ q.n ≤ 4 ∧ q.off + q.n ≤ len
        ∧ ∀ v : View, v.len = len → (memRead v q).isSome)
    ∧ (hashReads len).flatMap (fun q => (List.range q.n).map (q.off + ·)) = List.range len

/-- R120: `hash32` as the loop over word indices: the little-endian word of bytes `4i .. 4i+3` folded for each
`i` in order, then, if `L mod 4` is not 0, the tail bytes; and as the recursion on the sequence. The tail word
is a 4-byte load masked, whatever lies beyond the tail. -/
def Obligations.HashFunctionIsTheIndexLoop : Prop :=
  (∀ (b : List Byte) (s : Word),
    let h := (List.range (b.length / 4)).foldl (fun h i =>
      mix (h ^^^ BitVec.ofNat 32 (∑ j ∈ Finset.range 4, 2 ^ (8 * j) * (b.getD (4 * i + j) 0).toNat))) s
    hash32 b s =
      if b.length % 4 = 0 then h
      else mix (h ^^^ BitVec.ofNat 32
        (∑ j ∈ Finset.range (b.length % 4), 2 ^ (8 * j) * (b.getD (4 * (b.length / 4) + j) 0).toNat)))
  ∧ (∀ s : Word, hash32 [] s = s)
  ∧ (∀ (b : List Byte) (s : Word), 4 ≤ b.length →
      hash32 b s = hash32 (b.drop 4) (mix (s ^^^ BitVec.ofNat 32
        (∑ j ∈ Finset.range 4, 2 ^ (8 * j) * (b.getD j 0).toNat))))
  ∧ (∀ (b : List Byte) (s : Word), 1 ≤ b.length → b.length ≤ 3 →
      hash32 b s = mix (s ^^^ BitVec.ofNat 32
        (∑ j ∈ Finset.range b.length, 2 ^ (8 * j) * (b.getD j 0).toNat)))
  ∧ (∀ tl beyond : List Byte, tl.length ≤ 3 →
      leWord (tl ++ beyond) &&& tailmask (BitVec.ofNat 2 tl.length) = leWord tl)

/-- R121: HASH32, for every seed and every view, writes `hash32` of the view's bytes to `H` and answers it,
whatever `d[63:32]` and the old `H`; it changes nothing else. -/
def Obligations.HashCommand : Prop :=
  (∀ (seed : Word) (s : State), exec (.hash32 seed) s =
    .next { s with h := hash32 s.buf.bytes seed,
                   sent := s.sent ++ [⟨.ok, (hash32 s.buf.bytes seed).setWidth 64⟩] })
  ∧ (∀ (s : State) (rest : List HostMove) (d : DWord),
    step (s.withInbox (.command (0x20#8 ++ d) :: rest)) =
      .next { h := hash32 s.buf.bytes (d.extractLsb' 0 32), buf := s.buf, inbox := rest,
              sent := s.sent ++ [⟨.ok, (hash32 s.buf.bytes (d.extractLsb' 0 32)).setWidth 64⟩] })

/-- R124: on an empty view HASH32 performs no mixing step and reads nothing: `H` and the response are the
seed. -/
def Obligations.EmptyViewHashesToTheSeed : Prop :=
  (∀ s : Word, hash32 [] s = s)
  ∧ hashReads 0 = []
  ∧ (∀ (seed : Word) (s : State), s.buf.len = 0 →
      exec (.hash32 seed) s = .next { s with h := seed, sent := s.sent ++ [⟨.ok, seed.setWidth 64⟩] })

/-- R125: for every byte sequence, seed and state, the stream SEED, one ABSORB per full word, TAIL with any
word whose low bytes are the tail, DIGEST ends with `H = hash32(b, s)` and a last response that carries it; so
does the stream without the TAIL when there is no tail; and so does HASH32 with the sequence bound. That the
last clause binds the sequence as a move of the host is log 4 (DESIGN CHOICE). -/
def Obligations.StreamEqualsHash : Prop :=
  ∀ (s : State) (b : List Byte) (seed : Word),
    (∀ wt : Word, (∀ j, j < b.length % 4 → some (byteOf j wt) = (tailBytes b)[j]?) →
      ∃ t rs, (s.withInbox (issue ([.seed seed] ++ absorbs b
          ++ [.tail (BitVec.ofNat 2 (b.length % 4)) wt] ++ [.digest]))).serve = .next t
        ∧ t.h = hash32 b seed
        ∧ t.sent = s.sent ++ rs ++ [⟨.ok, (hash32 b seed).setWidth 64⟩])
    ∧ (b.length % 4 = 0 →
      ∃ t rs, (s.withInbox (issue ([.seed seed] ++ absorbs b ++ [.digest]))).serve = .next t
        ∧ t.h = hash32 b seed
        ∧ t.sent = s.sent ++ rs ++ [⟨.ok, (hash32 b seed).setWidth 64⟩])
    ∧ (∃ t, (s.withInbox (.bind b :: issue [.hash32 seed])).serve = .next t
        ∧ t.h = hash32 b seed
        ∧ t.sent = s.sent ++ [⟨.ok, (hash32 b seed).setWidth 64⟩])

/-- R126: when the length of `a` is a multiple of 4, hashing `a ++ b` is hashing `b` from the digest of `a`;
in commands, a HASH32 on `a` and a HASH32 on `b` seeded with its digest end as one HASH32 on `a ++ b` does
(the views are bound as moves of the host: log 4, DESIGN CHOICE).
The spec's two examples, where it holds and where it fails, have the spec's digests. -/
def Obligations.ChainingThroughTheSeed : Prop :=
  (∀ (a b : List Byte) (s : Word), a.length % 4 = 0 → hash32 (a ++ b) s = hash32 b (hash32 a s))
  ∧ (∀ (st : State) (a b : List Byte) (s : Word), a.length % 4 = 0 → ∃ t u r,
      (st.withInbox (.bind a :: issue [.hash32 s] ++ .bind b :: issue [.hash32 (hash32 a s)])).serve
        = .next t
      ∧ (st.withInbox (.bind (a ++ b) :: issue [.hash32 s])).serve = .next u
      ∧ t.h = u.h
      ∧ t.sent = st.sent ++ [⟨.ok, (hash32 a s).setWidth 64⟩, r]
      ∧ u.sent = st.sent ++ [r])
  ∧ hash32 [0x61, 0x62, 0x63, 0x64] 0 = 0x9033E3FD
  ∧ hash32 [0x65, 0x66, 0x67, 0x68] 0x9033E3FD = 0x17AEA703
  ∧ hash32 [0x61, 0x62, 0x63, 0x64, 0x65, 0x66, 0x67, 0x68] 0 = 0x17AEA703
  ∧ hash32 [0x61, 0x62] 0 = 0x90BB2367 ∧ hash32 [0x63, 0x64] 0x90BB2367 = 0x646D9CA6

/-- R128 (and R151): HASH32, BSWAP32 and BSWAP64 do not depend on `H` or on what came before: in two states
with the same view they give the same response, and HASH32 the same `H`. -/
def Obligations.StatelessCommandsIgnoreH : Prop :=
  ∀ (s s' : State), s.buf = s'.buf →
    (∀ seed : Word, ∃ t t' r, exec (.hash32 seed) s = .next t ∧ exec (.hash32 seed) s' = .next t'
      ∧ t.h = t'.h ∧ t.sent = s.sent ++ [r] ∧ t'.sent = s'.sent ++ [r])
    ∧ (∀ x : Word, ∃ t t' r, exec (.bswap32 x) s = .next t ∧ exec (.bswap32 x) s' = .next t'
      ∧ t.sent = s.sent ++ [r] ∧ t'.sent = s'.sent ++ [r])
    ∧ (∀ x : DWord, ∃ t t' r, exec (.bswap64 x) s = .next t ∧ exec (.bswap64 x) s' = .next t'
      ∧ t.sent = s.sent ++ [r] ∧ t'.sent = s'.sent ++ [r])

/-- R129: for every byte sequence the digest is a bijection of the seed; the three digests of `A`, `AA`, `AAA`
are the spec's and differ; zero bytes that stay inside the last partial word do not change the digest, and an
all-zero buffer from seed 0 hashes to 0; a zero byte that starts a new word costs a mixing step, and the
spec's example changes. -/
def Obligations.SeedAndLengthSensitivity : Prop :=
  (∀ b : List Byte, Function.Bijective (hash32 b))
  ∧ hash32 [0x41] 0 = 0x258B3E69 ∧ hash32 [0x41, 0x41] 0 = 0x4D6693DE
  ∧ hash32 [0x41, 0x41, 0x41] 0 = 0x4D5EB4B9
  ∧ (∀ k, hash32 (List.replicate k 0) 0 = 0)
  ∧ (∀ (b : List Byte) (s : Word) (z : Nat), b.length % 4 ≠ 0 → b.length % 4 + z ≤ 4 →
      hash32 (b ++ List.replicate z 0) s = hash32 b s)
  ∧ hash32 [0x61] 0 = 0x409DE0AB
  ∧ (∀ (b : List Byte) (s : Word), b.length % 4 = 0 → hash32 (b ++ [0]) s = mix (hash32 b s))
  ∧ hash32 [0x61, 0x62, 0x63, 0x64] 0 = 0x9033E3FD
  ∧ hash32 [0x61, 0x62, 0x63, 0x64, 0x00] 0 = 0x6C4DD2DE

/-! ## Runs -/

/-- R29: after reset `H` is 0, from State.reset and from every state the host resets, so a stream of ABSORBs
and a TAIL issued then, without a SEED, computes the hash from seed 0. -/
def Obligations.StreamAfterResetHashesFromZero : Prop :=
  State.reset.h = 0
  ∧ ∀ (s : State) (b : List Byte) (wt : Word),
      (∀ j, j < b.length % 4 → some (byteOf j wt) = (tailBytes b)[j]?) →
      (∃ t, (State.reset.withInbox (issue (absorbs b
          ++ [.tail (BitVec.ofNat 2 (b.length % 4)) wt]))).serve = .next t ∧ t.h = hash32 b 0)
      ∧ (∃ t, (s.withInbox (.reset :: issue (absorbs b
          ++ [.tail (BitVec.ofNat 2 (b.length % 4)) wt]))).serve = .next t ∧ t.h = hash32 b 0)

/-- Nothing of the state before a reset survives it (R161): two runs that reset in states with the same view
bound, and are offered the same moves afterwards, end with the same `H` and give the same responses. That the
view itself stays bound is log 4 (DESIGN CHOICE). -/
def Obligations.ResetForgetsTheState : Prop :=
  ∀ (s s' : State) (moves : List HostMove), s.buf = s'.buf → ∃ t t' rs,
    (s.withInbox (.reset :: moves)).serve = .next t
    ∧ (s'.withInbox (.reset :: moves)).serve = .next t'
    ∧ t.h = t'.h ∧ t.buf = t'.buf
    ∧ t.sent = s.sent ++ rs ∧ t'.sent = s'.sent ++ rs

/-- Everything the host offers is taken, whatever it is, and the block is then idle; each command word has had
one response and no other move any; moves offered later change nothing about the earlier ones (R50, R171).
This holds for a fair host only, one that always answers: R170 and log 9 (DEDUCED). -/
def Obligations.RunsTakeEverythingInOrder : Prop :=
  ∀ (s : State) (ms ms' : List HostMove), ∃ t u,
    (s.withInbox ms).serve = .next t
    ∧ t.inbox = []
    ∧ s.sent <+: t.sent
    ∧ t.sent.length = s.sent.length + (ms.filter HostMove.isCommand).length
    ∧ (s.withInbox (ms ++ ms')).serve = .next u
    ∧ (t.withInbox ms').serve = .next u

/-- A stream saved with DIGEST and restored with SEED of the value answered goes on as if nothing had come
between: whatever moves but a binding stand between the two, the commands after the SEED end with the same `H`
and give the same responses as without the interruption (R165, R166). That the view stays bound between
commands, and across a reset in between, is log 4 (DESIGN CHOICE): `t.buf = u.buf`, and the responses where a
HASH32 stands in `after`, rest on it. -/
def Obligations.SaveAndRestoreAStream : Prop :=
  ∀ (s : State) (between after : List HostMove), (∀ m ∈ between, m.isBind = false) →
    ∃ t u r mid rs,
      (s.withInbox (.command (encode .digest) :: between
        ++ .command (encode (.seed (low32 r))) :: after)).serve = .next t
      ∧ (s.withInbox after).serve = .next u
      ∧ t.h = u.h ∧ t.buf = u.buf
      ∧ t.sent = s.sent ++ ⟨.ok, r⟩ :: mid ++ rs
      ∧ u.sent = s.sent ++ rs
end

