-- ==== Sys2Proof/Laws/Decode.lean ====
section
/-! SUPPORT. The fields of a command word. -/

namespace Sys2Proof

/-- Taking a word apart gives the fields it was put together from. -/
@[simp] theorem fieldsOf_wordOf (r : RawCommand) : fieldsOf (wordOf r) = r := by
  obtain ⟨op, rsv, n, d⟩ := r
  simp only [fieldsOf, wordOf, RawCommand.mk.injEq]
  refine ⟨?_, ?_, ?_, ?_⟩ <;> ext i hi <;> simp only [BitVec.getElem_extractLsb', BitVec.getLsbD_append]
  · rw [if_neg (by omega), if_neg (by omega), if_neg (by omega), show 68 + i - 64 - 2 - 2 = i by omega]
    simp [hi]
  · rw [if_neg (by omega), if_neg (by omega), if_pos (by omega), show 66 + i - 64 - 2 = i by omega]
    simp [hi]
  · rw [if_neg (by omega), if_pos (by omega), show 64 + i - 64 = i by omega]
    simp [hi]
  · rw [if_pos (by omega), Nat.zero_add]
    simp [hi]

/-- Putting a word's fields together gives the word. -/
@[simp] theorem wordOf_fieldsOf (w : CmdWord) : wordOf (fieldsOf w) = w := by
  refine BitVec.eq_of_getLsbD_eq fun i hi => ?_
  simp only [wordOf, fieldsOf, BitVec.getLsbD_append, BitVec.getLsbD_extractLsb']
  split_ifs
  · rw [decide_eq_true (by omega), Nat.zero_add, Bool.true_and]
  · rw [decide_eq_true (by omega), show 64 + (i - 64) = i by omega, Bool.true_and]
  · rw [decide_eq_true (by omega), show 66 + (i - 64 - 2) = i by omega, Bool.true_and]
  · rw [decide_eq_true (by omega), show 68 + (i - 64 - 2 - 2) = i by omega, Bool.true_and]

/-- A command's word depends on its fields alone. -/
theorem decode_wordOf (r : RawCommand) : decode (wordOf r) = decodeFields r := by rw [decode, fieldsOf_wordOf]

/-- The decoder answers a command exactly for the legal words: the opcode map (R64) and the list of illegal
causes (R67) agree. -/
theorem decode_isOk_iff_legal (w : CmdWord) : (∃ i, decode w = .ok i) ↔ (fieldsOf w).legal = true := by
  have h : ∀ (op : BitVec 4) (rsv n : BitVec 2) (d : DWord),
      (∃ i, decodeFields ⟨op, rsv, n, d⟩ = .ok i)
        ↔ (opOf op).isSome = true ∧ rsv = 0#2 ∧ (n = 0#2 ∨ opOf op = some .tail) := by
    intro op rsv n d
    simp only [decodeFields, withoutCount]
    cases opOf op with
    | none => simp
    | some o => by_cases hr : rsv = 0#2 <;> by_cases hn : n = 0#2 <;> cases o <;> simp [hr, hn]
  have hlegal : ∀ (op : BitVec 4) (rsv n : BitVec 2),
      ((opOf op).isSome = true ∧ rsv = 0#2 ∧ (n = 0#2 ∨ opOf op = some .tail))
        ↔ RawCommand.legal ⟨op, rsv, n, 0⟩ = true := by decide
  rw [decode, h, hlegal]
  rfl

@[simp] theorem low32_zext64 (v : Word) : low32 (zext64 v) = v := by
  refine BitVec.eq_of_getLsbD_eq fun i hi => ?_
  simp [low32, zext64, hi]
  omega

end Sys2Proof
end

