-- ==== Sys2Proof/Laws/State.lean ====
section
/-! SUPPORT. One lemma per field for each update of the state, so that no proof unfolds a record update. -/

namespace Sys2Proof.Machine

@[simp] theorem State.writeH_h (s : State) (v : Word) : (s.writeH v).h = v := rfl
@[simp] theorem State.writeH_buf (s : State) (v : Word) : (s.writeH v).buf = s.buf := rfl
@[simp] theorem State.writeH_inbox (s : State) (v : Word) : (s.writeH v).inbox = s.inbox := rfl
@[simp] theorem State.writeH_sent (s : State) (v : Word) : (s.writeH v).sent = s.sent := rfl

@[simp] theorem State.respond_h (s : State) (r : Response) : (s.respond r).h = s.h := rfl
@[simp] theorem State.respond_buf (s : State) (r : Response) : (s.respond r).buf = s.buf := rfl
@[simp] theorem State.respond_inbox (s : State) (r : Response) : (s.respond r).inbox = s.inbox := rfl
@[simp] theorem State.respond_sent (s : State) (r : Response) : (s.respond r).sent = s.sent ++ [r] := rfl

@[simp] theorem State.bindView_h (s : State) (b : List Byte) : (s.bindView b).h = s.h := rfl
@[simp] theorem State.bindView_buf (s : State) (b : List Byte) : (s.bindView b).buf = View.ofBytes b := rfl
@[simp] theorem State.bindView_inbox (s : State) (b : List Byte) : (s.bindView b).inbox = s.inbox := rfl
@[simp] theorem State.bindView_sent (s : State) (b : List Byte) : (s.bindView b).sent = s.sent := rfl

@[simp] theorem State.withInbox_h (s : State) (ms : List HostMove) : (s.withInbox ms).h = s.h := rfl
@[simp] theorem State.withInbox_buf (s : State) (ms : List HostMove) : (s.withInbox ms).buf = s.buf := rfl
@[simp] theorem State.withInbox_inbox (s : State) (ms : List HostMove) : (s.withInbox ms).inbox = ms := rfl
@[simp] theorem State.withInbox_sent (s : State) (ms : List HostMove) : (s.withInbox ms).sent = s.sent := rfl
@[simp] theorem State.withInbox_withInbox (s : State) (ms ms' : List HostMove) :
    (s.withInbox ms).withInbox ms' = s.withInbox ms' := rfl
@[simp] theorem State.withInbox_self (s : State) : s.withInbox s.inbox = s := rfl

@[simp] theorem resetBlock_h (s : State) : (resetBlock s).h = Config.hReset := rfl
@[simp] theorem resetBlock_buf (s : State) : (resetBlock s).buf = s.buf := rfl
@[simp] theorem resetBlock_inbox (s : State) : (resetBlock s).inbox = s.inbox := rfl
@[simp] theorem resetBlock_sent (s : State) : (resetBlock s).sent = s.sent := rfl

@[simp] theorem raiseIllegalCmd_h (s : State) : (raiseIllegalCmd s).h = s.h := rfl
@[simp] theorem raiseIllegalCmd_buf (s : State) : (raiseIllegalCmd s).buf = s.buf := rfl
@[simp] theorem raiseIllegalCmd_inbox (s : State) : (raiseIllegalCmd s).inbox = s.inbox := rfl
@[simp] theorem raiseIllegalCmd_sent (s : State) :
    (raiseIllegalCmd s).sent = s.sent ++ [Response.illegal] := rfl

end Sys2Proof.Machine
end

