-- ==== Sys2Proof/Laws/Memory.lean ====
section
/-!
SUPPORT. The canonical form of a view's memory (log 5): binding a byte sequence makes it, it reads back as
that sequence, and no two canonical views stand for one sequence.
-/

namespace Sys2Proof.Machine

/-! ## Memories -/

/-- Below its first offset a canonical memory lists nothing. -/
theorem Memory.byteAt_of_lt {m : Memory} {lo off : Nat} (h : Memory.wfFrom lo m = true) (hlt : off < lo) :
    Memory.byteAt m off = Config.unlistedByte := by
  induction m generalizing lo with
  | nil => rfl
  | cons c m ih =>
    obtain ⟨a, b⟩ := c
    simp only [Memory.wfFrom, Bool.and_eq_true, decide_eq_true_eq] at h
    rw [Memory.byteAt, if_neg (by omega)]
    exact ih h.2 (by omega)

/-- A canonical form may begin earlier. -/
theorem Memory.wfFrom_mono {m : Memory} {lo lo' : Nat} (h : Memory.wfFrom lo m = true) (hle : lo' ≤ lo) :
    Memory.wfFrom lo' m = true := by
  cases m with
  | nil => rfl
  | cons c m =>
    simp only [Memory.wfFrom, Bool.and_eq_true, decide_eq_true_eq] at h ⊢
    exact ⟨⟨by omega, h.1.2⟩, h.2⟩

/-- The memory of a byte sequence is in canonical form. -/
theorem Memory.wfFrom_ofBytesFrom (off : Nat) (bs : List Byte) :
    Memory.wfFrom off (Memory.ofBytesFrom off bs) = true := by
  induction bs generalizing off with
  | nil => rfl
  | cons b bs ih =>
    by_cases hb : b = Config.unlistedByte
    · rw [Memory.ofBytesFrom, if_pos hb]
      exact Memory.wfFrom_mono (ih (off + 1)) (by omega)
    · simp [Memory.ofBytesFrom, hb, Memory.wfFrom, ih (off + 1)]

/-- Every cell of the memory of a byte sequence lies in it. -/
theorem Memory.lt_of_mem_ofBytesFrom {off : Nat} {bs : List Byte} {c : Host.Cell}
    (h : c ∈ Memory.ofBytesFrom off bs) : c.1 < off + bs.length := by
  induction bs generalizing off with
  | nil => simp [Memory.ofBytesFrom] at h
  | cons b bs ih =>
    simp only [List.length_cons]
    by_cases hb : b = Config.unlistedByte
    · rw [Memory.ofBytesFrom, if_pos hb] at h
      have := ih h
      omega
    · rw [Memory.ofBytesFrom, if_neg hb, List.mem_cons] at h
      rcases h with rfl | h
      · simp
      · have := ih h
        omega

/-- The memory of a byte sequence reads back as the sequence. -/
theorem Memory.byteAt_ofBytesFrom (off : Nat) (bs : List Byte) (j : Nat) :
    Memory.byteAt (Memory.ofBytesFrom off bs) (off + j) = bs.getD j Config.unlistedByte := by
  induction bs generalizing off j with
  | nil => rfl
  | cons b bs ih =>
    cases j with
    | zero =>
      by_cases hb : b = Config.unlistedByte
      · rw [Memory.ofBytesFrom, if_pos hb, Memory.byteAt_of_lt (Memory.wfFrom_ofBytesFrom (off + 1) bs) (by omega)]
        simp [hb]
      · simp [Memory.ofBytesFrom, hb, Memory.byteAt]
    | succ j =>
      have hoff : off + (j + 1) = (off + 1) + j := by omega
      by_cases hb : b = Config.unlistedByte
      · rw [Memory.ofBytesFrom, if_pos hb, hoff, ih]
        simp
      · rw [Memory.ofBytesFrom, if_neg hb, Memory.byteAt, if_neg (by omega), hoff, ih]
        simp

/-- Two canonical memories that read alike are equal. -/
theorem Memory.eq_of_byteAt_eq {m m' : Memory} {lo : Nat} (h : Memory.wfFrom lo m = true)
    (h' : Memory.wfFrom lo m' = true) (heq : ∀ off, Memory.byteAt m off = Memory.byteAt m' off) : m = m' := by
  induction m generalizing m' lo with
  | nil =>
    cases m' with
    | nil => rfl
    | cons c m' =>
      obtain ⟨a, b⟩ := c
      have := heq a
      simp [Memory.wfFrom, Memory.byteAt] at h' this
      exact absurd this.symm h'.1.2
  | cons c m ih =>
    obtain ⟨a, b⟩ := c
    simp only [Memory.wfFrom, Bool.and_eq_true, decide_eq_true_eq, bne_iff_ne, ne_eq] at h
    cases m' with
    | nil =>
      have := heq a
      simp only [Memory.byteAt, if_true] at this
      exact absurd this h.1.2
    | cons c' m' =>
      obtain ⟨a', b'⟩ := c'
      simp only [Memory.wfFrom, Bool.and_eq_true, decide_eq_true_eq, bne_iff_ne, ne_eq] at h'
      have ha : a = a' := by
        rcases Nat.lt_trichotomy a a' with hlt | heq' | hgt
        · have := heq a
          rw [Memory.byteAt, if_pos rfl, Memory.byteAt, if_neg (by omega),
            Memory.byteAt_of_lt h'.2 (by omega)] at this
          exact absurd this h.1.2
        · exact heq'
        · have := heq a'
          rw [Memory.byteAt, if_neg (by omega), Memory.byteAt_of_lt h.2 (by omega), Memory.byteAt,
            if_pos rfl] at this
          exact absurd this.symm h'.1.2
      subst ha
      have hb : b = b' := by simpa [Memory.byteAt] using heq a
      subst hb
      have hm : m = m' := by
        refine ih h.2 h'.2 fun off => ?_
        by_cases hoff : a = off
        · subst hoff
          rw [Memory.byteAt_of_lt h.2 (by omega), Memory.byteAt_of_lt h'.2 (by omega)]
        · simpa [Memory.byteAt, hoff] using heq off
      rw [hm]

/-! ## Views -/

@[simp] theorem View.len_ofBytes (bs : List Byte) : (View.ofBytes bs).len = bs.length := rfl

/-- Binding a byte sequence, the one operation that makes a memory, makes a canonical view. -/
@[simp] theorem View.wf_ofBytes (bs : List Byte) : (View.ofBytes bs).wf = true := by
  simp only [View.wf, View.ofBytes, Bool.and_eq_true, List.all_eq_true]
  refine ⟨Memory.wfFrom_ofBytesFrom 0 bs, fun c hc => decide_eq_true ?_⟩
  simpa using Memory.lt_of_mem_ofBytesFrom hc

/-- A byte of a bound sequence. -/
theorem View.byteAt_ofBytes (bs : List Byte) (off : Nat) :
    (View.ofBytes bs).cells.byteAt off = bs.getD off Config.unlistedByte := by
  have h := Memory.byteAt_ofBytesFrom 0 bs off
  rwa [Nat.zero_add] at h

@[simp] theorem View.length_bytes (v : View) : v.bytes.length = v.len := by simp [View.bytes]

/-- A bound sequence reads back as itself. -/
@[simp] theorem View.bytes_ofBytes (bs : List Byte) : (View.ofBytes bs).bytes = bs := by
  refine List.ext_getElem (by simp) fun i h₁ h₂ => ?_
  simp [View.bytes, View.byteAt_ofBytes, List.getD_eq_getElem?_getD, h₂]

/-- Two canonical views of one byte sequence are equal. -/
theorem View.eq_of_bytes_eq {v v' : View} (h : v.wf = true) (h' : v'.wf = true) (heq : v.bytes = v'.bytes) :
    v = v' := by
  have hlen : v.len = v'.len := by simpa using congrArg List.length heq
  obtain ⟨len, cells⟩ := v
  obtain ⟨len', cells'⟩ := v'
  simp only at hlen
  subst hlen
  simp only [View.wf, Bool.and_eq_true, List.all_eq_true, decide_eq_true_eq] at h h'
  have hcells : cells = cells' := by
    refine Memory.eq_of_byteAt_eq h.1 h'.1 fun off => ?_
    by_cases hoff : off < len
    · have := congrArg (fun l => l[off]?) heq
      simpa [View.bytes, hoff] using this
    · have hnone : ∀ m : Memory, (∀ c ∈ m, c.1 < len) → Memory.byteAt m off = Config.unlistedByte := by
        intro m hm
        induction m with
        | nil => rfl
        | cons c m ih =>
          obtain ⟨a, b⟩ := c
          have := hm (a, b) (by simp)
          rw [Memory.byteAt, if_neg (by simp only at this; omega)]
          exact ih fun c hc => hm c (by simp [hc])
      rw [hnone cells h.2, hnone cells' h'.2]
  rw [hcells]

/-- A canonical view is the one its bytes bind. -/
theorem View.ofBytes_bytes {v : View} (h : v.wf = true) : View.ofBytes v.bytes = v :=
  View.eq_of_bytes_eq (View.wf_ofBytes _) h (by simp)

/-- The memory of the reset state is in canonical form. -/
theorem State.reset_buf_wf : State.reset.buf.wf = true := rfl

end Sys2Proof.Machine
end

