-- ==== Sys2Proof/Laws/Ops.lean ====
section
/-! SUPPORT. What each shared operation does, said once. -/

namespace Sys2Proof.Machine

/-! ## Byte swaps and the mixing step -/

/-- Every bit of `bswap32`. -/
theorem getLsbD_bswap32 (x : Word) {i : Nat} (h : i < 32) :
    (bswap32 x).getLsbD i = x.getLsbD (8 * (3 - i / 8) + i % 8) := by
  simp only [bswap32, BitVec.getLsbD_append, BitVec.getLsbD_extractLsb']
  interval_cases i <;> rfl

/-- Every bit of `bswap64`. -/
theorem getLsbD_bswap64 (x : DWord) {i : Nat} (h : i < 64) :
    (bswap64 x).getLsbD i = x.getLsbD (8 * (7 - i / 8) + i % 8) := by
  simp only [bswap64, BitVec.getLsbD_append, BitVec.getLsbD_extractLsb']
  interval_cases i <;> rfl

/-- The three sub-steps of the mixing step, in order (R101). -/
theorem mix_eq (x : Word) :
    mix x = bswap32 (0xE22132C5#32 * x ^^^ (0xE22132C5#32 * x) >>> 5) := rfl

/-- Folding a word: XOR, then mix. -/
theorem foldWord_eq (a w : Word) : foldWord a w = mix (a ^^^ w) := rfl

/-! ## Little-endian values -/

/-- The value of a byte sequence fits in its bits. -/
theorem leNat_lt (bs : List Byte) : leNat bs < 2 ^ (8 * bs.length) := by
  induction bs with
  | nil => simp [leNat]
  | cons b bs ih =>
    have hb := b.isLt
    rw [leNat, List.length_cons, show 8 * (bs.length + 1) = 8 * bs.length + 8 by ring, Nat.pow_add]
    omega

/-- Adding a byte at the end of a sequence. -/
theorem leNat_append_singleton (bs : List Byte) (b : Byte) :
    leNat (bs ++ [b]) = leNat bs + 2 ^ (8 * bs.length) * b.toNat := by
  induction bs with
  | nil => simp [leNat]
  | cons c bs ih =>
    rw [List.cons_append, leNat, leNat, ih, List.length_cons, show 8 * (bs.length + 1) = 8 * bs.length + 8 by ring,
      Nat.pow_add]
    ring

/-- The sum form and the sequence form of a little-endian value agree. -/
theorem leSum_eq_leNat (f : Nat → Byte) (n : Nat) : leSum f n = leNat ((List.range n).map f) := by
  induction n with
  | zero => rfl
  | succ n ih => simp [leSum, ih, List.range_succ, leNat_append_singleton]

/-! ## The hash of a byte sequence -/

@[simp] theorem hash32_nil (s : Word) : hash32 [] s = s := rfl

theorem hash32_fullWord (b0 b1 b2 b3 : Byte) (rest : List Byte) (s : Word) :
    hash32 (b0 :: b1 :: b2 :: b3 :: rest) s = hash32 rest (foldWord s (leWord [b0, b1, b2, b3])) := rfl

theorem hash32_tail1 (b0 : Byte) (s : Word) : hash32 [b0] s = foldWord s (leWord [b0]) := rfl

theorem hash32_tail2 (b0 b1 : Byte) (s : Word) : hash32 [b0, b1] s = foldWord s (leWord [b0, b1]) := rfl

theorem hash32_tail3 (b0 b1 b2 : Byte) (s : Word) :
    hash32 [b0, b1, b2] s = foldWord s (leWord [b0, b1, b2]) := rfl

/-! ## Reads of BUF -/

/-- What a read answers: exactly inside the view, the little-endian value of its bytes (R41). -/
theorem memRead_eq_some_iff (v : View) (q : BufRead) (x : BitVec (8 * q.n)) :
    memRead v q = some x ↔ (1 ≤ q.n ∧ q.n ≤ 4 ∧ q.off + q.n ≤ v.len)
      ∧ x = BitVec.ofNat (8 * q.n) (leNat ((List.range q.n).map fun j => v.cells.byteAt (q.off + j))) := by
  rw [memRead, leSum_eq_leNat]
  by_cases h : 1 ≤ q.n ∧ q.n ≤ 4 ∧ q.off + q.n ≤ v.len
  · simp only [h, and_self, if_true, Option.some.injEq, true_and]
    exact eq_comm
  · rw [if_neg h]
    simp [h]

/-- A read is defined exactly inside the view (R41). -/
theorem memRead_isSome_iff (v : View) (q : BufRead) :
    (memRead v q).isSome = true ↔ 1 ≤ q.n ∧ q.n ≤ 4 ∧ q.off + q.n ≤ v.len := by
  rw [memRead]
  split <;> simp_all

/-- Folding two lists of reads one after the other. -/
theorem foldReads_append (v : View) (qs qs' : List BufRead) (a : Word) :
    foldReads v (qs ++ qs') a = (foldReads v qs a).bind (foldReads v qs') := by
  induction qs generalizing a with
  | nil => rfl
  | cons q qs ih =>
    simp only [List.cons_append, foldReads]
    cases memRead v q with
    | none => rfl
    | some w => exact ih _

/-- A fold over reads answers exactly when every read is defined. -/
theorem foldReads_isSome_iff (v : View) (qs : List BufRead) (a : Word) :
    (foldReads v qs a).isSome = true ↔ ∀ q ∈ qs, (memRead v q).isSome = true := by
  induction qs generalizing a with
  | nil => simp [foldReads]
  | cons q qs ih =>
    simp only [foldReads, List.forall_mem_cons]
    cases memRead v q with
    | none => simp
    | some w => simpa using ih _

end Sys2Proof.Machine
end

