-- ==== Sys2Proof/Laws/PerInstr.lean ====
section
/-! SUPPORT. Facts about every command as syntax, one lemma per constructor. -/

namespace Sys2Proof.Laws.EncodedFieldsLegal

/-- The fields the assembler writes for a command are legal by R67. -/
def Statement (i : Instr) : Prop := (encodeFields i).legal = true

theorem bswap32 (x32 : Word) : Statement (.bswap32 x32) := rfl
theorem bswap64 (x64 : DWord) : Statement (.bswap64 x64) := rfl
theorem hash32 (seed : Word) : Statement (.hash32 seed) := rfl
theorem seed (seed : Word) : Statement (.seed seed) := rfl
theorem absorb (w : Word) : Statement (.absorb w) := rfl
theorem tail (n : BitVec 2) (w : Word) : Statement (.tail n w) := by
  simp [Statement, encodeFields, RawCommand.legal, RawCommand.opReserved, RawCommand.rsvSet,
    RawCommand.countMisplaced]
theorem digest : Statement .digest := rfl

end Sys2Proof.Laws.EncodedFieldsLegal
end

