-- ==== Sys2Proof/Laws/Step.lean ====
section
/-! SUPPORT. What a command word and a step can do, said once each. -/

namespace Sys2Proof.Machine

/-- A legal word runs its command. -/
theorem runWord_of_decode_ok {w : CmdWord} {i : Instr} (h : decode w = .ok i) (s : State) :
    runWord w s = exec i s := by rw [runWord, h]

/-- An illegal word takes ILLEGAL_CMD (R141). -/
theorem runWord_of_decode_error {w : CmdWord} {e : Illegal} (h : decode w = .error e) (s : State) :
    runWord w s = .next (raiseIllegalCmd s) := by rw [runWord, h]

@[simp] theorem step_idle (s : State) : step (s.withInbox []) = .next (s.withInbox []) := rfl

@[simp] theorem step_reset (s : State) (ms : List HostMove) :
    step (s.withInbox (.reset :: ms)) = .next (resetBlock (s.withInbox ms)) := rfl

@[simp] theorem step_bind (s : State) (bytes : List Byte) (ms : List HostMove) :
    step (s.withInbox (.bind bytes :: ms)) = .next ((s.withInbox ms).bindView bytes) := rfl

@[simp] theorem step_command (s : State) (w : CmdWord) (ms : List HostMove) :
    step (s.withInbox (.command w :: ms)) = runWord w (s.withInbox ms) := rfl

/-- Everything a step that answers a next state can have done. -/
theorem step_next_cases {s t : State} (h : step s = .next t) :
    (s.inbox = [] ∧ t = s)
    ∨ (∃ ms, s.inbox = .reset :: ms ∧ t = resetBlock (s.withInbox ms))
    ∨ (∃ bytes ms, s.inbox = .bind bytes :: ms ∧ t = (s.withInbox ms).bindView bytes)
    ∨ (∃ w ms i, s.inbox = .command w :: ms ∧ decode w = .ok i ∧ exec i (s.withInbox ms) = .next t)
    ∨ (∃ w ms e, s.inbox = .command w :: ms ∧ decode w = .error e ∧ t = raiseIllegalCmd (s.withInbox ms)) := by
  rw [step] at h
  split at h
  · exact .inl ⟨‹_›, (Host.Outcome.next.inj h).symm⟩
  · exact .inr (.inl ⟨_, ‹_›, (Host.Outcome.next.inj h).symm⟩)
  · exact .inr (.inr (.inl ⟨_, _, ‹_›, (Host.Outcome.next.inj h).symm⟩))
  · rename_i w ms hin
    cases hd : decode w with
    | ok i => exact .inr (.inr (.inr (.inl ⟨w, ms, i, hin, hd, (runWord_of_decode_ok hd _).symm.trans h⟩)))
    | error e =>
      rw [runWord_of_decode_error hd] at h
      exact .inr (.inr (.inr (.inr ⟨w, ms, e, hin, hd, (Host.Outcome.next.inj h).symm⟩)))

end Sys2Proof.Machine
end

