-- ==== Sys2Proof/Laws/Serve.lean ====
section
/-! SUPPORT. A run over everything offered, one move at a time. -/

namespace Sys2Proof.Machine

/-- With nothing offered a run ends where it began. -/
@[simp] theorem State.serve_nil (s : State) : (s.withInbox []).serve = .next (s.withInbox []) := rfl

/-- A run takes the first move by one step and serves the rest. -/
theorem State.serve_cons {s t : State} {m : HostMove} {ms : List HostMove}
    (h : step (s.withInbox (m :: ms)) = .next t) (ht : t.inbox = ms) :
    (s.withInbox (m :: ms)).serve = t.serve := by
  have hrun : (s.withInbox (m :: ms)).serve = Sys2Proof.core.run ms.length t := by
    simp only [State.serve, State.withInbox_inbox, List.length_cons, Host.Core.run]
    rw [show Sys2Proof.core.step (s.withInbox (m :: ms)) = .next t from h]
  rw [hrun, State.serve, ht]

end Sys2Proof.Machine
end

