-- ==== Sys2Proof/Tests/Slice0.lean ====
section
/-!
SUPPORT. Tests: expected values are the spec's (spec/95_test_vectors.md unless a comment says otherwise), and
for each statement with hypotheses a concrete case that meets them.
-/

namespace Sys2Proof.Tests

open Sys2Proof.Machine

/-- A state with a value of `H`, a bound byte sequence and offered moves. -/
def st (h : Word) (bytes : List Byte) (moves : List HostMove) : State := ⟨h, View.ofBytes bytes, moves, []⟩

/-- `H` and the response words after one step, when it answers a next state. -/
def seen (o : Host.Outcome State Fault Refusal) : Option (Word × List RspWord) :=
  match o with
  | .next t => some (t.h, t.sent.map Response.word)
  | _ => none

/-- One command word on a state. -/
def one (h : Word) (bytes : List Byte) (w : CmdWord) : Option (Word × List RspWord) :=
  seen (step (st h bytes [.command w]))

/-! ## Well-formedness: one illegal term for each cause of R67 -/

theorem test_legal_refuses_reserved_op : RawCommand.legal ⟨0x3, 0, 0, 0⟩ = false := by decide
theorem test_legal_refuses_op_8 : RawCommand.legal ⟨0x8, 0, 0, 0⟩ = false := by decide
theorem test_legal_refuses_rsv : RawCommand.legal ⟨0x4, 1, 0, 0⟩ = false := by decide
theorem test_legal_refuses_count : RawCommand.legal ⟨0x5, 0, 1, 0⟩ = false := by decide
theorem test_legal_takes_tail_3 : RawCommand.legal ⟨0x6, 0, 3, 0⟩ = true := by decide
theorem test_memory_wf_refuses_unsorted : Memory.wf [(1, 1), (0, 1)] = false := by decide
theorem test_memory_wf_refuses_listed_default : Memory.wf [(0, 0)] = false := by decide
theorem test_view_wf_refuses_cell_past_end : View.wf ⟨1, [(1, 1)]⟩ = false := by decide

/-! ## Decoding: words written out from R61 and R65 -/

theorem test_decode_bswap32 : decode (0x0#4 ++ 0#2 ++ 0#2 ++ 0xFFFFFFFF01020304#64) = .ok (.bswap32 0x01020304) := by
  decide
theorem test_decode_bswap64 : decode (0x1#4 ++ 0#2 ++ 0#2 ++ 0x0102030405060708#64)
    = .ok (.bswap64 0x0102030405060708) := by decide
theorem test_decode_hash32 : decode (0x2#4 ++ 0#2 ++ 0#2 ++ 0x9033E3FD#64) = .ok (.hash32 0x9033E3FD) := by decide
theorem test_decode_seed : decode (0x4#4 ++ 0#2 ++ 0#2 ++ 0xFFFFFFFF00000000#64) = .ok (.seed 0) := by decide
theorem test_decode_absorb : decode (0x5#4 ++ 0#2 ++ 0#2 ++ 0x6C6C6568#64) = .ok (.absorb 0x6C6C6568) := by decide
theorem test_decode_tail : decode (0x6#4 ++ 0#2 ++ 3#2 ++ 0x00786F66#64) = .ok (.tail 3 0x00786F66) := by decide
theorem test_decode_digest : decode (0x7#4 ++ 0#2 ++ 0#2 ++ 0xDEADBEEFDEADBEEF#64) = .ok .digest := by decide
theorem test_decode_reserved : decode 0x300000000000000000 = .error .reservedOp := by decide
theorem test_decode_rsv : decode 0x690000000000000061 = .error .reservedBits := by decide
theorem test_decode_count : decode 0x230000000000000000 = .error .countOutsideTail := by decide
theorem test_encode_tail : encode (.tail 1 0x6F) = 0x61000000000000006F := by decide
theorem test_table_word : decodeTableWord 72 0x61000000000000006F = some (.tail 1 0x6F) := by decide

/-! ## One step of each command -/

theorem test_bswap32 : one 0xCAFEF00D [] 0x000000000001020304
    = some (0xCAFEF00D, [0x00000000004030201]) := by decide
theorem test_bswap32_ignores_upper_half : one 0 [] 0x00DEADBEEF00000001
    = some (0, [0x00000000001000000]) := by decide
theorem test_bswap64 : one 0xCAFEF00D [] 0x10DEADBEEFCAFEF00D
    = some (0xCAFEF00D, [0x00DF0FECAEFBEADDE]) := by decide
theorem test_bswap64_small : one 0 [] 0x100000000001020304 = some (0, [0x00403020100000000]) := by decide
theorem test_hash32_hello : one 0x12345678 [0x68, 0x65, 0x6C, 0x6C, 0x6F] 0x200000000000000000
    = some (0x15A5E4CA, [0x00000000015A5E4CA]) := by decide
theorem test_hash32_quick_brown_fox : one 0 [0x54, 0x68, 0x65, 0x20, 0x71, 0x75, 0x69, 0x63, 0x6B, 0x20, 0x62,
    0x72, 0x6F, 0x77, 0x6E, 0x20, 0x66, 0x6F, 0x78] 0x200000000000000000
    = some (0xB23C654A, [0x000000000B23C654A]) := by decide
theorem test_seed : one 1 [] 0x40FFFFFFFFDEADBEEF = some (0xDEADBEEF, [0x000000000DEADBEEF]) := by decide
theorem test_absorb_hell : one 0 [] 0x50000000006C6C6568 = some (0xC05B4D7E, [0x000000000C05B4D7E]) := by decide
theorem test_absorb_ignores_upper_half : one 0x9033E3FD [] 0x50FFFFFFFF68676665
    = some (0x17AEA703, [0x00000000017AEA703]) := by decide
theorem test_tail_1 : one 0x9033E3FD [] 0x6100000000FFFFFF65 = some (0x671DFEA5, [0x000000000671DFEA5]) := by decide
theorem test_tail_0 : one 0x9033E3FD [] 0x6000000000FFFFFFFF = some (0x9033E3FD, [0x0000000009033E3FD]) := by decide
theorem test_digest : one 0x15A5E4CA [] 0x70DEADBEEFDEADBEEF = some (0x15A5E4CA, [0x00000000015A5E4CA]) := by decide
theorem test_illegal : one 0xCAFEF00D [0x61] 0xFFFFFFFFFFFFFFFFFF = some (0xCAFEF00D, [0x10000000000000000]) := by
  decide
/-- P7: a reset sets `H` to 0 and answers nothing. -/
theorem test_reset_move : seen (step (st 0x6F0AB103 [] [.reset])) = some (0, []) := by decide
/-- The first command after reset is the one the host offers. -/
theorem test_withFetchWord : seen (step (State.reset.withFetchWord 72 0x400000000000000005))
    = some (5, [0x00000000000000005]) := by decide
/-- R41's worked example. -/
theorem test_memRead : memRead (View.ofBytes [0x68, 0x65, 0x6C, 0x6C, 0x6F]) ⟨4, 1⟩ = some 0x6F#8 := by decide
/-- A zero byte of a view is data, and stands in no cell. -/
theorem test_view_of_zero_byte : View.ofBytes [0x61, 0, 0x62] = ⟨3, [(0, 0x61), (2, 0x62)]⟩ := by decide

/-! ## Cases that meet the hypotheses of the statements -/

/-- The widest data of BSWAP64 and TAIL, the ignored data of DIGEST, and a TAIL whose ignored bytes 1 to 3 of `w`
are kept. -/
theorem witness_EncodeOfDecodeClearsUpperData :
    decode 0x10FFFFFFFFFFFFFFFF = .ok (.bswap64 0xFFFFFFFFFFFFFFFF) ∧ decode 0x70DEADBEEFDEADBEEF = .ok .digest
    ∧ decode 0x63FFFFFFFFFFFFFFFF = .ok (.tail 3 0xFFFFFFFF)
    ∧ decode 0x6100000000FFFFFF65 = .ok (.tail 1 0xFFFFFF65)
    ∧ encode (.tail 1 0xFFFFFF65) = 0x6100000000FFFFFF65 := by decide
theorem witness_ControlByteDecidesLegality :
    (⟨.tail, 0x600000000000000000, 0xFC0000000000000000⟩ : OpcodeRow) ∈ opcodeTable
    ∧ (0x63DEADBEEFDEADBEEF#72 &&& 0xFC0000000000000000 = 0x600000000000000000)
    ∧ decode 0x63DEADBEEFDEADBEEF = .ok (.tail 3 0xDEADBEEF) := by decide
theorem witness_IllegalWordIsAnsweredAndHarmless :
    (0x300000000000000000#72).extractLsb' 68 4 = 0x3#4 ∧ 0x8#4 ≤ (0x800000000000000000#72).extractLsb' 68 4
    ∧ 0x8#4 ≤ (0xF00000000000000000#72).extractLsb' 68 4
    ∧ (0x440000000000000000#72).extractLsb' 66 2 ≠ 0#2
    ∧ ((0x510000000000000000#72).extractLsb' 64 2 ≠ 0#2 ∧ (0x510000000000000000#72).extractLsb' 68 4 ≠ 0x6#4) := by
  decide
/-- Used bits: all 64 for BSWAP64, none for DIGEST, the low 24 for TAIL with `n = 3` and none with `n = 0`, the
low 32 for ABSORB and for a word that is illegal anyway. -/
theorem witness_OperandsAndIgnoredBits :
    (∀ k, k < 64 → (0x5#64).getLsbD k = (0x5#64).getLsbD k)
    ∧ (∀ k, k < 0 → (0x5#64).getLsbD k = (0x6#64).getLsbD k)
    ∧ (0x63#8).extractLsb' 2 6 = 0b011000#6 ∧ 8 * ((0x63#8).extractLsb' 0 2).toNat = 24
    ∧ (∀ k, k < 24 → (0xFF786F66#64).getLsbD k = (0x00786F66#64).getLsbD k)
    ∧ 8 * ((0x60#8).extractLsb' 0 2).toNat = 0
    ∧ (∀ k, k < 32 → (0xFFFFFFFF00000001#64).getLsbD k = (0x1#64).getLsbD k) := by decide
theorem witness_StepRunsDecodedCommand :
    (st 0 [] [.command 0x400000000000000005]).inbox = .command 0x400000000000000005 :: []
    ∧ decode 0x400000000000000005 = .ok (.seed 5) := by decide
theorem witness_OneResponsePerCommandWord :
    decode 0x500000000000000001 = .ok (.absorb 1) ∧ decode 0x300000000000000000 = .error .reservedOp
    ∧ (0x500000000000000001#72).extractLsb' 64 8 ≠ 0x10#8 := by decide
theorem witness_StepKeepsStateWellFormed :
    (st 5 [1, 0, 2] [.bind [0, 7], .reset]).wf 2 = true
    ∧ step (st 5 [1, 0, 2] [.bind [0, 7], .reset]) = .next (st 5 [0, 7] [.reset]) := ⟨by decide, rfl⟩
/-- One case for each of the five ways `H` changes. -/
theorem witness_OnlyItsWritersChangeH :
    seen (step (st 5 [] [.reset])) = some (0, []) ∧ (0 : Word) ≠ 5
    ∧ (one 5 [] 0x400000000000000006).map Prod.fst = some 6 ∧ (6 : Word) ≠ 5
    ∧ (one 1 [] 0x500000000000000001).map Prod.fst = some 0 ∧ (0 : Word) ≠ 1
    ∧ (one 1 [] 0x610000000000000001).map Prod.fst = some 0
    ∧ (one 1 [] 0x200000000000000000).map Prod.fst = some 0 := by decide
theorem witness_CommandFrame :
    exec (.seed 6) (st 5 [1] []) = .next ⟨6, View.ofBytes [1], [], [⟨.ok, 6⟩]⟩
    ∧ exec (.tail 0#2 7) (st 5 [1] []) = .next ⟨5, View.ofBytes [1], [], [⟨.ok, 5⟩]⟩
    ∧ exec .digest (st 5 [1] []) = .next ⟨5, View.ofBytes [1], [], [⟨.ok, 5⟩]⟩
    ∧ exec (.bswap32 0) (st 5 [1] []) = .next ⟨5, View.ofBytes [1], [], [⟨.ok, 0⟩]⟩
    ∧ exec (.bswap64 0) (st 5 [1] []) = .next ⟨5, View.ofBytes [1], [], [⟨.ok, 0⟩]⟩ := ⟨rfl, rfl, rfl, rfl, rfl⟩
theorem witness_OnlyHashReadsTheView : ∀ seed, Instr.absorb 7 ≠ .hash32 seed := by simp
/-- Byte and bit positions at both ends of their ranges, for the statements about byte swaps and masks. -/
theorem witness_byte_positions : 0 < 4 ∧ 3 < 4 ∧ 0 < 8 ∧ 7 < 8 ∧ (1 : Word) ≠ 0 := by decide
theorem witness_ByteSwapsAreInvolutions : (∀ j, j < 4 → byteOf j 0x12343412#32 = byteOf (3 - j) 0x12343412#32)
    ∧ bswap32 0x12343412 = 0x12343412 := by decide
theorem witness_MixIsBijective : (0xABE09D40#32) = 0xAE943CA5#32 ^^^ (0xAE943CA5#32 >>> 5) := by decide
theorem witness_TailCommand : (0#2 = 0#2) ∧ (1#2 ≠ 0#2) ∧ (3#2 ≠ 0#2) := by decide
/-- P4 without its SEED: an ABSORB, four neutral words, a TAIL; and the same without the TAIL. -/
theorem witness_StreamedState :
    (([0x500000000064636261, 0x000000000001020304, 0x300000000064636261, 0x100102030405060708, 0x700000000000000000,
        0x6100000000FFFFFF65] : List CmdWord).filter (fun w => !neutralWord w)).map decode
      = [0x64636261#32].map (fun x => .ok (.absorb x)) ++ [.ok (.tail 1 0xFFFFFF65)]
    ∧ (([0x500000000064636261, 0x6000000000FFFFFFFF] : List CmdWord).filter (fun w => !neutralWord w)).map decode
      = [0x64636261#32].map (fun x => .ok (.absorb x)) ++ [.ok (.tail 0 0xFFFFFFFF)]
    ∧ (([0x500000000064636261, 0x000000000001020304] : List CmdWord).filter (fun w => !neutralWord w)).map decode
      = [0x64636261#32].map (fun x => .ok (.absorb x)) := by decide
/-- The largest and the smallest read at the end of a view, and the three ways a read is not defined. -/
theorem witness_MemReadIsLittleEndian :
    (1 ≤ 4 ∧ 4 ≤ 4 ∧ 1 + 4 ≤ (View.ofBytes [1, 2, 3, 4, 5]).len)
    ∧ (1 ≤ 1 ∧ 1 ≤ 4 ∧ 4 + 1 ≤ (View.ofBytes [1, 2, 3, 4, 5]).len)
    ∧ memRead (View.ofBytes [1, 2, 3, 4, 5]) ⟨0, 0⟩ = none ∧ memRead (View.ofBytes [1, 2, 3, 4, 5]) ⟨0, 5⟩ = none
    ∧ memRead (View.ofBytes [1, 2, 3, 4, 5]) ⟨2, 4⟩ = none := by decide
theorem witness_HashReadsCoverTheView :
    (1 < 11 / 4 ∧ 11 % 4 ≠ 0 ∧ (⟨8, 3⟩ : BufRead) ∈ hashReads 11)
    ∧ (View.ofBytes [1, 2, 3, 4, 5, 6, 7, 8, 9, 10, 11]).len = 11
    ∧ hashReads 4 = [⟨0, 4⟩] ∧ hashReads 3 = [⟨0, 3⟩] := by decide
theorem witness_HashFunctionIsTheIndexLoop :
    4 ≤ ([1, 2, 3, 4] : List Byte).length ∧ (1 ≤ ([1] : List Byte).length ∧ ([1] : List Byte).length ≤ 3)
    ∧ ([1, 2, 3] : List Byte).length ≤ 3 ∧ ([] : List Byte).length ≤ 3 := by decide
theorem witness_EmptyViewHashesToTheSeed : (st 5 [] []).buf.len = 0 := rfl
/-- "hello" has one tail byte, "hell" none; the tail word has junk above. -/
theorem witness_StreamEqualsHash :
    (∀ j, j < ([0x68, 0x65, 0x6C, 0x6C, 0x6F] : List Byte).length % 4 →
      some (byteOf j 0xFFFFFF6F#32) = (tailBytes [0x68, 0x65, 0x6C, 0x6C, 0x6F])[j]?)
    ∧ ([0x68, 0x65, 0x6C, 0x6C] : List Byte).length % 4 = 0 := by decide
theorem witness_StreamAfterResetHashesFromZero :
    ∀ j, j < ([0x61, 0x62, 0x63] : List Byte).length % 4 →
      some (byteOf j 0xFF636261#32) = (tailBytes [0x61, 0x62, 0x63])[j]? := by decide
theorem witness_ChainingThroughTheSeed : ([0x61, 0x62, 0x63, 0x64] : List Byte).length % 4 = 0 := by decide
theorem witness_StatelessCommandsIgnoreH : (st 1 [0x61] []).buf = (st 2 [0x61] [.reset]).buf := rfl
theorem witness_SeedAndLengthSensitivity :
    (([0x61] : List Byte).length % 4 ≠ 0 ∧ ([0x61] : List Byte).length % 4 + 3 ≤ 4)
    ∧ ([0x61, 0x62, 0x63, 0x64] : List Byte).length % 4 = 0 := by decide
theorem witness_ResetForgetsTheState : (st 1 [0x61] []).buf = (st 2 [0x61] [.reset]).buf := rfl
theorem witness_SaveAndRestoreAStream :
    ∀ m ∈ [HostMove.command 0x200000000000000001, HostMove.reset], m.isBind = false := by decide

end Sys2Proof.Tests
end

section
/-! SUPPORT. What each command does, said once: its arm of `exec`, that it completes, and whether it writes `H`
(spec/10_state.md R21, R31; spec/42_hash32_fold.md R122; spec/60_exceptions.md R142). -/

namespace Sys2Proof.Machine

/-! ## The arms of exec -/

theorem exec_bswap32 (x : Word) (s : State) :
    exec (.bswap32 x) s = .next (s.respond (.ok32 (bswap32 x))) := rfl

theorem exec_bswap64 (x : DWord) (s : State) :
    exec (.bswap64 x) s = .next (s.respond (.ok64 (bswap64 x))) := rfl

theorem exec_seed (seed : Word) (s : State) :
    exec (.seed seed) s = .next ((s.writeH seed).respond (.ok32 seed)) := rfl

theorem exec_absorb (w : Word) (s : State) :
    exec (.absorb w) s = .next ((s.writeH (foldWord s.h w)).respond (.ok32 (foldWord s.h w))) := rfl

theorem exec_tail (n : BitVec 2) (w : Word) (s : State) :
    exec (.tail n w) s = .next ((s.writeH (tailState n w s.h)).respond (.ok32 (tailState n w s.h))) := rfl

theorem exec_digest (s : State) : exec .digest s = .next (s.respond (.ok32 s.h)) := rfl

theorem exec_hash32_of_hashView {s : State} {seed a : Word} (h : hashView s.buf seed = some a) :
    exec (.hash32 seed) s = .next ((s.writeH a).respond (.ok32 a)) := by
  rw [exec, execHash32, h]

/-! ## HASH32 reads inside the view only -/

/-- Every read of HASH32 is of one to four bytes inside the view (R122). -/
theorem extent_of_mem_hashReads {len : Nat} {q : BufRead} (h : q ∈ hashReads len) :
    1 ≤ q.n ∧ q.n ≤ 4 ∧ q.off + q.n ≤ len := by
  rw [hashReads, List.mem_append] at h
  rcases h with hfull | htail
  · obtain ⟨i, hi, rfl⟩ := List.mem_map.mp hfull
    have := List.mem_range.mp hi
    simp only
    omega
  · split at htail
    · simp at htail
    · obtain rfl := List.mem_singleton.mp htail
      simp only
      omega

/-- The loop of HASH32 has a result on every view (R122, R127). -/
theorem hashView_defined (v : View) (seed : Word) : ∃ a, hashView v seed = some a := by
  refine Option.isSome_iff_exists.mp ?_
  rw [hashView, foldReads_isSome_iff]
  exact fun q hq => (memRead_isSome_iff v q).mpr (extent_of_mem_hashReads hq)

/-! ## Completion -/

/-- Every command completes: all it does is write `H`, perhaps with the value it had, and add one OK
response. -/
theorem exec_completes (i : Instr) (s : State) :
    ∃ h r, exec i s = .next ((s.writeH h).respond ⟨.ok, r⟩) := by
  cases i with
  | bswap32 x => exact ⟨s.h, _, exec_bswap32 x s⟩
  | bswap64 x => exact ⟨s.h, _, exec_bswap64 x s⟩
  | hash32 seed =>
    obtain ⟨a, ha⟩ := hashView_defined s.buf seed
    exact ⟨a, _, exec_hash32_of_hashView ha⟩
  | seed seed => exact ⟨_, _, exec_seed seed s⟩
  | absorb w => exact ⟨_, _, exec_absorb w s⟩
  | tail n w => exact ⟨_, _, exec_tail n w s⟩
  | digest => exact ⟨s.h, _, exec_digest s⟩

/-- A command has one next state. -/
theorem exec_next_unique {i : Instr} {s t u : State} (ht : exec i s = .next t) (hu : exec i s = .next u) :
    t = u := Host.Outcome.next.inj (ht.symm.trans hu)

/-- What every command leaves unchanged, and the one response it adds (R24, R45). -/
theorem exec_frame {i : Instr} {s t : State} (h : exec i s = .next t) :
    t.buf = s.buf ∧ t.inbox = s.inbox ∧ ∃ r, t.sent = s.sent ++ [⟨.ok, r⟩] := by
  obtain ⟨h', r, heq⟩ := exec_completes i s
  obtain rfl := exec_next_unique h heq
  exact ⟨rfl, rfl, r, rfl⟩

/-- Every command word, legal or not, completes with one response. -/
theorem runWord_completes (w : CmdWord) (s : State) :
    ∃ t r, runWord w s = .next t ∧ t.sent = s.sent ++ [r] := by
  cases hd : decode w with
  | ok i =>
    obtain ⟨h, r, heq⟩ := exec_completes i s
    exact ⟨_, _, (runWord_of_decode_ok hd s).trans heq, rfl⟩
  | error e => exact ⟨_, _, runWord_of_decode_error hd s, rfl⟩

/-- No state is stuck (R31). -/
theorem step_completes (s : State) : ∃ t, step s = .next t := by
  rw [← State.withInbox_self s]
  cases s.inbox with
  | nil => exact ⟨_, step_idle s⟩
  | cons m ms =>
    cases m with
    | reset => exact ⟨_, step_reset s ms⟩
    | bind bytes => exact ⟨_, step_bind s bytes ms⟩
    | command w =>
      obtain ⟨t, r, hrun, -⟩ := runWord_completes w (s.withInbox ms)
      exact ⟨t, (step_command s w ms).trans hrun⟩

/-! ## The writers of H -/

/-- The commands that write `H` (R21): a TAIL of no byte does not (R166). -/
def writesH : Instr → Bool
  | .seed _ => true
  | .absorb _ => true
  | .tail n _ => n != 0#2
  | .hash32 _ => true
  | .bswap32 _ => false
  | .bswap64 _ => false
  | .digest => false

/-- The writers, as R21 lists them. -/
theorem writesH_cases {i : Instr} (h : writesH i = true) :
    (∃ x, i = .seed x) ∨ (∃ x, i = .absorb x) ∨ (∃ n x, i = .tail n x ∧ n ≠ 0#2) ∨ ∃ x, i = .hash32 x := by
  cases i with
  | seed x => exact .inl ⟨x, rfl⟩
  | absorb x => exact .inr (.inl ⟨x, rfl⟩)
  | tail n x => exact .inr (.inr (.inl ⟨n, x, rfl, bne_iff_ne.mp h⟩))
  | hash32 x => exact .inr (.inr (.inr ⟨x, rfl⟩))
  | bswap32 x => cases h
  | bswap64 x => cases h
  | digest => cases h

/-- The four forms that do not write `H` (R21, R166). -/
theorem not_writesH_of_form {i : Instr}
    (h : (∃ x, i = .bswap32 x) ∨ (∃ x, i = .bswap64 x) ∨ i = .digest ∨ ∃ x, i = .tail 0#2 x) :
    writesH i = false := by
  rcases h with ⟨x, rfl⟩ | ⟨x, rfl⟩ | rfl | ⟨x, rfl⟩ <;> rfl

/-- A TAIL of no byte leaves the running state (R107). -/
@[simp] theorem tailState_zero (w h : Word) : tailState 0#2 w h = h := rfl

/-- With a byte to fold, a TAIL folds its masked word (R107). -/
theorem tailState_of_ne_zero {n : BitVec 2} (hn : n ≠ 0#2) (w h : Word) :
    tailState n w h = foldWord h (tailWord n w) := if_neg hn

/-- A command that is no writer of `H` keeps it. -/
theorem exec_keeps_h {i : Instr} {s t : State} (hi : writesH i = false) (h : exec i s = .next t) :
    t.h = s.h := by
  cases i with
  | bswap32 x => rw [exec_next_unique h (exec_bswap32 x s), State.respond_h]
  | bswap64 x => rw [exec_next_unique h (exec_bswap64 x s), State.respond_h]
  | digest => rw [exec_next_unique h (exec_digest s), State.respond_h]
  | tail n w =>
    obtain rfl : n = 0#2 := bne_eq_false_iff_eq.mp hi
    rw [exec_next_unique h (exec_tail 0#2 w s), State.respond_h, State.writeH_h, tailState_zero]
  | hash32 seed => cases hi
  | seed seed => cases hi
  | absorb w => cases hi

end Sys2Proof.Machine
end

section
/-! The statements about the state and its register `H` (spec/10_state.md). -/

namespace Sys2Proof.Machine

/-- Settles O12: the empty view of log 3 is canonical and shorter than `2 ^ lenw`, and nothing is offered. -/
theorem resetIsWellFormed : Obligations.ResetIsWellFormed := by
  intro lenw
  have hfits : State.reset.buf.fits lenw = true := decide_eq_true (Nat.two_pow_pos lenw)
  have hoffered : State.reset.inbox.all (HostMove.fits lenw) = true := rfl
  rw [State.wf, State.reset_buf_wf, hfits, hoffered]
  rfl

/-- Settles O9: HASH32's reads stay inside the view, so no arm of `exec` faults, and a step does no more than
one command word. -/
theorem everyCommandCompletes : Obligations.EveryCommandCompletes := by
  refine ⟨fun i s => ?_, step_completes, fun s w rest => ?_⟩
  · obtain ⟨h, r, heq⟩ := exec_completes i s
    exact ⟨_, r, heq, rfl⟩
  · exact runWord_completes w (s.withInbox rest)

/-- Settles O13, by the five things a step can have done. -/
theorem onlyItsWritersChangeH : Obligations.OnlyItsWritersChangeH := by
  intro s t hstep hne
  rcases step_next_cases hstep with ⟨-, rfl⟩ | ⟨ms, hin, -⟩ | ⟨bytes, ms, -, rfl⟩
    | ⟨w, ms, i, hin, hd, hexec⟩ | ⟨w, ms, e, -, -, rfl⟩
  · exact absurd rfl hne
  · exact ⟨.reset, ms, hin, .inl rfl⟩
  · exact absurd rfl hne
  · have hw : writesH i = true := by
      by_contra hnot
      have hkept : t.h = (s.withInbox ms).h := exec_keeps_h (eq_false_of_ne_true hnot) hexec
      exact hne hkept
    exact ⟨.command w, ms, hin, .inr ⟨w, i, rfl, hd, writesH_cases hw⟩⟩
  · exact absurd rfl hne

/-- Settles O14: the frame every command shares, and the commands that do not write `H`. -/
theorem commandFrame : Obligations.CommandFrame := by
  intro i s t h
  obtain ⟨hbuf, hinbox, hsent⟩ := exec_frame h
  exact ⟨hbuf, fun off => by rw [hbuf], hinbox, hsent, fun hi => exec_keeps_h (not_writesH_of_form hi) h⟩

/-- Settles O15: the arm of every command but HASH32 leaves the view where it is and does not mention it. -/
theorem onlyHashReadsTheView : Obligations.OnlyHashReadsTheView := by
  intro i s v hi
  cases i with
  | hash32 seed => exact absurd rfl (hi seed)
  | bswap32 x => exact ⟨_, exec_bswap32 x s, exec_bswap32 x _⟩
  | bswap64 x => exact ⟨_, exec_bswap64 x s, exec_bswap64 x _⟩
  | seed seed => exact ⟨_, exec_seed seed s, exec_seed seed _⟩
  | absorb w => exact ⟨_, exec_absorb w s, exec_absorb w _⟩
  | tail n w => exact ⟨_, exec_tail n w s, exec_tail n w _⟩
  | digest => exact ⟨_, exec_digest s, exec_digest _⟩

end Sys2Proof.Machine
end

section
/-! SUPPORT. Streams of commands as the assembler writes them: a run takes them one by one, the ABSORBs of a
byte sequence fold its full words, and a TAIL folds the rest (spec/41_mixer_stream.md R106, R107;
spec/42_hash32_fold.md R120). -/

namespace Sys2Proof.Machine

/-! ## Serving issued commands -/

/-- The decoder gives an assembled command back (R66, R70). -/
@[simp] theorem decode_encode (i : Instr) : decode (encode i) = .ok i := by
  rw [encode, decode_wordOf]
  cases i <;> simp [encodeFields, decodeFields, opOf, withoutCount]

theorem issue_cons (i : Instr) (is : List Instr) : issue (i :: is) = .command (encode i) :: issue is := rfl

theorem issue_append (is is' : List Instr) : issue (is ++ is') = issue is ++ issue is' := List.map_append

/-- A run executes an assembled command that is offered first and serves the rest. -/
theorem serve_command_encode {s t : State} {i : Instr} {ms : List HostMove}
    (h : exec i (s.withInbox ms) = .next t) : (s.withInbox (.command (encode i) :: ms)).serve = t.serve := by
  obtain ⟨-, hinbox, -⟩ := exec_frame h
  refine State.serve_cons ?_ hinbox
  rw [step_command, runWord_of_decode_ok (decode_encode i), h]

/-- A run serves what is offered after a reset from the reset block. -/
theorem serve_reset (s : State) (ms : List HostMove) :
    (s.withInbox (.reset :: ms)).serve = ((resetBlock s).withInbox ms).serve :=
  State.serve_cons (step_reset s ms) rfl

/-! ## Full words -/

/-- A sequence of fewer than four bytes has no full word. -/
theorem absorbs_of_length_lt {b : List Byte} (h : b.length < 4) : absorbs b = [] := by
  simp [absorbs, Nat.div_eq_of_lt h]

/-- A sequence of fewer than four bytes is all tail. -/
theorem tailBytes_of_length_lt {b : List Byte} (h : b.length < 4) : tailBytes b = b := by
  simp [tailBytes, Nat.div_eq_of_lt h]

/-- The first full word of a sequence is its first ABSORB. -/
theorem absorbs_fullWord (b0 b1 b2 b3 : Byte) (rest : List Byte) :
    absorbs (b0 :: b1 :: b2 :: b3 :: rest) = .absorb (leWord [b0, b1, b2, b3]) :: absorbs rest := by
  simp only [absorbs, List.length_cons, Nat.add_assoc, Nat.reduceAdd, Nat.add_div_right _ (Nat.succ_pos 3),
    List.range_succ_eq_map, List.map_cons, List.map_map]
  rfl

/-- A full word at the front is no part of the tail. -/
theorem tailBytes_fullWord (b0 b1 b2 b3 : Byte) (rest : List Byte) :
    tailBytes (b0 :: b1 :: b2 :: b3 :: rest) = tailBytes rest := by
  simp only [tailBytes, List.length_cons, Nat.add_assoc, Nat.reduceAdd, Nat.add_div_right _ (Nat.succ_pos 3)]
  rfl

theorem length_tailBytes (b : List Byte) : (tailBytes b).length = b.length % 4 := by
  rw [tailBytes, List.length_drop]
  omega

/-- The ABSORBs of a sequence leave its tail to be hashed, from the `H` they end with; the view stays and only
responses are added. -/
theorem serve_absorbs (b : List Byte) (s : State) (ms : List HostMove) :
    ∃ t : State, (s.withInbox (issue (absorbs b) ++ ms)).serve = (t.withInbox ms).serve
      ∧ hash32 (tailBytes b) t.h = hash32 b s.h ∧ t.buf = s.buf ∧ ∃ rs, t.sent = s.sent ++ rs := by
  match b with
  | b0 :: b1 :: b2 :: b3 :: rest =>
    let w := leWord [b0, b1, b2, b3]
    obtain ⟨t, hserve, hhash, hbuf, rs, hsent⟩ :=
      serve_absorbs rest ((s.writeH (foldWord s.h w)).respond (.ok32 (foldWord s.h w))) ms
    refine ⟨t, ?_, ?_, hbuf, .ok32 (foldWord s.h w) :: rs, ?_⟩
    · rw [absorbs_fullWord, issue_cons, List.cons_append, ← hserve]
      exact serve_command_encode (exec_absorb w _)
    · rw [tailBytes_fullWord, hhash, hash32_fullWord, State.respond_h, State.writeH_h]
    · rw [hsent, State.respond_sent, State.writeH_sent, List.append_assoc, List.singleton_append]
  | [] | [_] | [_, _] | [_, _, _] =>
    rw [absorbs_of_length_lt (by simp), tailBytes_of_length_lt (by simp)]
    exact ⟨s, rfl, rfl, rfl, [], (List.append_nil _).symm⟩

/-! ## The tail -/

/-- Masking a tail word keeps its value modulo `2 ^ (8n)` (R104). -/
theorem toNat_tailWord (n : BitVec 2) (w : Word) : (tailWord n w).toNat = w.toNat % 2 ^ (8 * n.toNat) := by
  have hle : 2 ^ (8 * n.toNat) ≤ 2 ^ 32 := Nat.pow_le_pow_right (by omega) (by have := n.isLt; omega)
  have hpos := Nat.two_pow_pos (8 * n.toNat)
  rw [tailWord, BitVec.toNat_and, tailmask, BitVec.toNat_ofNat, Nat.mod_eq_of_lt (by omega),
    Nat.and_two_pow_sub_one_eq_mod]

/-- The low bytes of a value, put together again, are the value modulo `2 ^ (8n)`. -/
theorem leNat_map_byteOf {k : Nat} (v : BitVec k) (n : Nat) :
    leNat ((List.range n).map (byteOf · v)) = v.toNat % 2 ^ (8 * n) := by
  induction n with
  | zero => simp [leNat, Nat.mod_one]
  | succ n ih =>
    rw [List.range_succ, List.map_append, List.map_singleton, leNat_append_singleton, ih, List.length_map,
      List.length_range, Nat.mul_succ, Nat.pow_add, Nat.mod_mul, byteOf, BitVec.extractLsb'_toNat,
      Nat.shiftRight_eq_div_pow]

/-- A word whose low bytes are a tail, masked, is the tail's little-endian word. -/
theorem tailWord_eq_leWord {tl : List Byte} {wt : Word} (hlen : tl.length < 4)
    (hb : ∀ j, j < tl.length → some (byteOf j wt) = tl[j]?) :
    tailWord (BitVec.ofNat 2 tl.length) wt = leWord tl := by
  have htl : tl = (List.range tl.length).map (byteOf · wt) := by
    refine List.ext_getElem (by simp) fun j h₁ h₂ => ?_
    have := hb j h₁
    simp_all
  have hle : leNat tl = wt.toNat % 2 ^ (8 * tl.length) := by
    rw [← leNat_map_byteOf, ← htl]
  refine BitVec.eq_of_toNat_eq ?_
  rw [toNat_tailWord, BitVec.toNat_ofNat, Nat.mod_eq_of_lt (show tl.length < 2 ^ 2 from hlen), leWord, BitVec.toNat_ofNat, hle,
    Nat.mod_eq_of_lt ((Nat.mod_le _ _).trans_lt wt.isLt)]

/-- One to three bytes are hashed by one fold of their little-endian word (R120). -/
theorem hash32_of_length_lt {tl : List Byte} (hne : tl ≠ []) (hlen : tl.length < 4) (h : Word) :
    hash32 tl h = foldWord h (leWord tl) := by
  match tl with
  | [] => exact absurd rfl hne
  | [_] => exact hash32_tail1 _ h
  | [_, _] => exact hash32_tail2 _ _ h
  | [_, _, _] => exact hash32_tail3 _ _ _ h
  | _ :: _ :: _ :: _ :: _ => simp at hlen; omega

/-- TAIL of a word whose low bytes are a tail hashes the tail; an empty tail is TAIL with `n = 0`. -/
theorem tailState_eq_hash32 {tl : List Byte} {wt : Word} (hlen : tl.length < 4)
    (hb : ∀ j, j < tl.length → some (byteOf j wt) = tl[j]?) (h : Word) :
    tailState (BitVec.ofNat 2 tl.length) wt h = hash32 tl h := by
  by_cases hne : tl = []
  · subst hne
    rfl
  · have hpos := List.length_pos_of_ne_nil hne
    have hn : BitVec.ofNat 2 tl.length ≠ 0#2 := fun h0 => by
      have := congrArg BitVec.toNat h0
      simp only [BitVec.toNat_ofNat] at this
      omega
    rw [tailState_of_ne_zero hn, tailWord_eq_leWord hlen hb, hash32_of_length_lt hne hlen]

/-- The ABSORBs and the TAIL of a byte sequence end with its hash from the `H` they began with. -/
theorem serve_absorbs_tail (s : State) {b : List Byte} {wt : Word}
    (hb : ∀ j, j < b.length % 4 → some (byteOf j wt) = (tailBytes b)[j]?) :
    ∃ t, (s.withInbox (issue (absorbs b ++ [.tail (BitVec.ofNat 2 (b.length % 4)) wt]))).serve = .next t
      ∧ t.h = hash32 b s.h := by
  rw [← length_tailBytes] at hb ⊢
  have hlen : (tailBytes b).length < 4 := by rw [length_tailBytes]; omega
  obtain ⟨u, hserve, hhash, -⟩ :=
    serve_absorbs b s (issue [.tail (BitVec.ofNat 2 (tailBytes b).length) wt])
  rw [issue_append, hserve, ← hhash, ← tailState_eq_hash32 hlen hb]
  exact ⟨_, serve_command_encode (exec_tail _ wt (u.withInbox [])), rfl⟩

end Sys2Proof.Machine
end

section
/-! The statement about a stream right after reset (spec/10_state.md R29). -/

namespace Sys2Proof.Machine

/-- Settles O39: `H` is 0 after reset, and the stream hashes from the `H` it finds. -/
theorem streamAfterResetHashesFromZero : Obligations.StreamAfterResetHashesFromZero := by
  refine ⟨rfl, fun s b wt hb => ⟨serve_absorbs_tail State.reset hb, ?_⟩⟩
  rw [serve_reset]
  exact serve_absorbs_tail (resetBlock s) hb

end Sys2Proof.Machine
end

section
/-! The statement about well-formed states (spec/20_memory.md R40, R44, R45, R53): the parts of `State.wf`, and
the one move that touches any of them. -/

namespace Sys2Proof.Machine

/-- What a well-formed state is, as propositions. -/
theorem State.wf_iff (lenw : Nat) (s : State) :
    s.wf lenw = true ↔ (s.buf.wf = true ∧ s.buf.fits lenw = true) ∧ ∀ m ∈ s.inbox, m.fits lenw = true := by
  rw [State.wf, Bool.and_eq_true, Bool.and_eq_true, List.all_eq_true]

/-- Well-formedness is about the view and the offers alone. -/
theorem State.wf_of_same_view_and_offers {lenw : Nat} {s t : State} (h : s.wf lenw = true)
    (hbuf : t.buf = s.buf) (hinbox : t.inbox = s.inbox) : t.wf lenw = true := by
  rwa [State.wf, hbuf, hinbox]

/-- Taking the oldest offer of a well-formed state leaves a well-formed state. -/
theorem State.wf_withInbox_rest {lenw : Nat} {s : State} {m : HostMove} {ms : List HostMove}
    (h : s.wf lenw = true) (hin : s.inbox = m :: ms) : (s.withInbox ms).wf lenw = true := by
  rw [State.wf_iff] at h ⊢
  obtain ⟨hview, hoffers⟩ := h
  exact ⟨hview, fun m' hm' => hoffers m' (hin ▸ List.mem_cons_of_mem m hm')⟩

/-- Binding a sequence of an allowed length keeps a state well-formed: binding makes the canonical form. -/
theorem State.wf_bindView {lenw : Nat} {s : State} {bytes : List Byte} (h : s.wf lenw = true)
    (hbytes : (HostMove.bind bytes).fits lenw = true) : (s.bindView bytes).wf lenw = true := by
  rw [State.wf_iff] at h ⊢
  obtain ⟨-, hoffers⟩ := h
  exact ⟨⟨View.wf_ofBytes bytes, hbytes⟩, hoffers⟩

/-- Settles O11, by the five things a step can have done: only a binding makes a new view, and its bytes were
offered. -/
theorem stepKeepsStateWellFormed : Obligations.StepKeepsStateWellFormed := by
  intro lenw s t hwf hstep
  rcases step_next_cases hstep with ⟨-, rfl⟩ | ⟨ms, hin, rfl⟩ | ⟨bytes, ms, hin, rfl⟩
    | ⟨w, ms, i, hin, -, hexec⟩ | ⟨w, ms, e, hin, -, rfl⟩
  · exact hwf
  · exact State.wf_of_same_view_and_offers (State.wf_withInbox_rest hwf hin) rfl rfl
  · obtain ⟨-, hoffers⟩ := (State.wf_iff lenw s).mp hwf
    exact State.wf_bindView (State.wf_withInbox_rest hwf hin) (hoffers _ (hin ▸ List.mem_cons_self))
  · obtain ⟨hbuf, hinbox, -⟩ := exec_frame hexec
    exact State.wf_of_same_view_and_offers (State.wf_withInbox_rest hwf hin) hbuf hinbox
  · exact State.wf_of_same_view_and_offers (State.wf_withInbox_rest hwf hin) rfl rfl

end Sys2Proof.Machine
end

section
/-! The statements about reading the view (spec/20_memory.md R41, R44; spec/42_hash32_fold.md R122). -/

namespace Sys2Proof.Machine

/-! ## Little-endian values -/

/-- The model's sum of bytes is the sum over their positions (R41). -/
theorem leSum_eq_sum (f : Nat → Byte) (n : Nat) :
    leSum f n = ∑ j ∈ Finset.range n, 2 ^ (8 * j) * (f j).toNat := by
  induction n with
  | zero => rfl
  | succ n ih => rw [leSum, ih, Finset.sum_range_succ]

/-- Digit `j`, base 256, of a little-endian value is byte `j` of the sequence. -/
theorem leNat_div_mod {bs : List Byte} {j : Nat} (hj : j < bs.length) :
    leNat bs / 2 ^ (8 * j) % 2 ^ 8 = bs[j].toNat := by
  induction bs generalizing j with
  | nil => cases hj
  | cons b bs ih =>
    have hb := b.isLt
    cases j with
    | zero => rw [leNat, List.getElem_cons_zero]; omega
    | succ j =>
      have hdrop : (b.toNat + 2 ^ 8 * leNat bs) / 2 ^ 8 = leNat bs := by omega
      rw [leNat, List.getElem_cons_succ, ← ih (Nat.lt_of_succ_lt_succ hj), Nat.mul_succ, Nat.add_comm (8 * j),
        Nat.pow_add, ← Nat.div_div_eq_div_mul, hdrop]

/-- The sum of `n` bytes fits in `8n` bits (R41). -/
theorem toNat_ofNat_leSum (f : Nat → Byte) (n : Nat) : (BitVec.ofNat (8 * n) (leSum f n)).toNat = leSum f n := by
  have hlt := leNat_lt ((List.range n).map f)
  rw [← leSum_eq_leNat, List.length_map, List.length_range] at hlt
  rw [BitVec.toNat_ofNat, Nat.mod_eq_of_lt hlt]

/-- Byte `j` of the sum of bytes, held in just its bits, is the byte at position `j` (R41). -/
theorem byteOf_ofNat_leSum (f : Nat → Byte) {n j : Nat} (hj : j < n) :
    byteOf j (BitVec.ofNat (8 * n) (leSum f n)) = f j := by
  refine BitVec.eq_of_toNat_eq ?_
  rw [byteOf, BitVec.extractLsb'_toNat, toNat_ofNat_leSum, Nat.shiftRight_eq_div_pow, leSum_eq_leNat,
    leNat_div_mod (by simpa using hj), List.getElem_map, List.getElem_range]

/-- Settles O30: inside the view a read is the sum of its bytes, which fits in `8n` bits and has them as its
digits. -/
theorem memReadIsLittleEndian : Obligations.MemReadIsLittleEndian := by
  intro v off n
  refine ⟨fun hpos hle hend => ?_, fun hout => ?_⟩
  · refine ⟨_, if_pos ⟨hpos, hle, hend⟩, ?_, fun j hj => ?_⟩
    · rw [toNat_ofNat_leSum, leSum_eq_sum]
    · rw [byteOf_ofNat_leSum _ hj]
      exact if_pos (by omega)
  · exact if_neg (by simp only; omega)

/-! ## The reads of HASH32 -/

/-- The full words of a view begin at the multiples of 4 (R44). -/
theorem getElem?_hashReads_of_lt {len i : Nat} (h : i < len / 4) : (hashReads len)[i]? = some ⟨4 * i, 4⟩ := by
  rw [hashReads, List.getElem?_append_left (by simpa using h)]
  simp [h]

/-- The bytes after the last full word are read together, last (R44). -/
theorem getElem?_hashReads_tail {len : Nat} (h : len % 4 ≠ 0) :
    (hashReads len)[len / 4]? = some ⟨4 * (len / 4), len % 4⟩ := by
  rw [hashReads, if_neg h, List.getElem?_append_right (by simp)]
  simp

/-- One read for every full word and one for a tail: `len / 4`, rounded up. -/
theorem length_hashReads (len : Nat) : (hashReads len).length = (len + 3) / 4 := by
  rw [hashReads, List.length_append, List.length_map, List.length_range]
  split
  · rw [List.length_nil]; omega
  · rw [List.length_singleton]; omega

/-- `k` full words one after the other take the first `4 * k` offsets in order. -/
theorem flatMap_fullWords (k : Nat) :
    (List.range k).flatMap (fun i => (List.range 4).map (4 * i + ·)) = List.range (4 * k) := by
  induction k with
  | zero => rfl
  | succ k ih =>
    rw [@List.range_succ k, List.flatMap_append, ih, List.flatMap_singleton, Nat.mul_succ, List.range_add]

/-- The reads of HASH32 take every offset below `len` once, in ascending order (R122). -/
theorem flatMap_hashReads (len : Nat) :
    (hashReads len).flatMap (fun q => (List.range q.n).map (q.off + ·)) = List.range len := by
  have hsplit : List.range len
      = List.range (4 * (len / 4)) ++ (List.range (len % 4)).map (4 * (len / 4) + ·) := by
    rw [← List.range_add, Nat.div_add_mod]
  rw [hashReads, List.flatMap_append, List.flatMap_map, flatMap_fullWords, hsplit]
  congr 1
  split
  next htail => rw [htail]; rfl
  next => exact List.flatMap_singleton ..

/-- Settles O31: the full words from the front, then the tail; a read inside the extent is defined. -/
theorem hashReadsCoverTheView : Obligations.HashReadsCoverTheView := by
  intro len
  refine ⟨length_hashReads len, fun i => getElem?_hashReads_of_lt, getElem?_hashReads_tail, fun q hq => ?_,
    flatMap_hashReads len⟩
  obtain ⟨hpos, hle, hend⟩ := extent_of_mem_hashReads hq
  exact ⟨hpos, hle, hend, fun v hv => (memRead_isSome_iff v q).mpr ⟨hpos, hle, hv ▸ hend⟩⟩

end Sys2Proof.Machine
end

section
/-! The statement about runs (spec/20_memory.md R50; spec/70_reset_and_hazards.md R171): what a move does does
not depend on what is offered after it. -/

namespace Sys2Proof.Machine

/-- A command does not see what is still offered. -/
theorem exec_withInbox {i : Instr} {s t : State} (h : exec i s = .next t) (ms : List HostMove) :
    exec i (s.withInbox ms) = .next (t.withInbox ms) := by
  cases i with
  | hash32 seed =>
    obtain ⟨a, ha⟩ := hashView_defined s.buf seed
    obtain rfl := exec_next_unique h (exec_hash32_of_hashView ha)
    exact exec_hash32_of_hashView ha
  | bswap32 _ | bswap64 _ | seed _ | absorb _ | tail _ _ | digest =>
    obtain rfl := Host.Outcome.next.inj h
    rfl

/-- A command word, legal or not, does not see what is still offered. -/
theorem runWord_withInbox {w : CmdWord} {s t : State} (h : runWord w s = .next t) (ms : List HostMove) :
    runWord w (s.withInbox ms) = .next (t.withInbox ms) := by
  cases hd : decode w with
  | ok i =>
    rw [runWord_of_decode_ok hd] at h ⊢
    exact exec_withInbox h ms
  | error e =>
    rw [runWord_of_decode_error hd] at h ⊢
    obtain rfl := Host.Outcome.next.inj h
    rfl

/-- A step takes the oldest move, whatever is offered after it, and adds one response exactly when the move is
a command word. -/
theorem step_takes_move (s : State) (m : HostMove) :
    ∃ (t : State) (rs : List Response), (∀ ms, step (s.withInbox (m :: ms)) = .next (t.withInbox ms))
      ∧ t.sent = s.sent ++ rs ∧ rs.length = ([m].filter HostMove.isCommand).length := by
  cases m with
  | reset => exact ⟨resetBlock s, [], step_reset s, (List.append_nil _).symm, rfl⟩
  | bind bytes => exact ⟨s.bindView bytes, [], step_bind s bytes, (List.append_nil _).symm, rfl⟩
  | command w =>
    obtain ⟨t, r, hrun, hsent⟩ := runWord_completes w s
    exact ⟨t, [r], runWord_withInbox hrun, hsent, rfl⟩

/-- A run takes a list of moves, whatever is offered after them, and adds one response per command word. -/
theorem serve_takes_moves (s : State) (ms : List HostMove) :
    ∃ (t : State) (rs : List Response), (∀ ms', (s.withInbox (ms ++ ms')).serve = (t.withInbox ms').serve)
      ∧ t.sent = s.sent ++ rs ∧ rs.length = (ms.filter HostMove.isCommand).length := by
  induction ms generalizing s with
  | nil => exact ⟨s, [], fun _ => rfl, (List.append_nil _).symm, rfl⟩
  | cons m ms ih =>
    obtain ⟨u, qs, hstep, husent, hqs⟩ := step_takes_move s m
    obtain ⟨t, rs, hserve, htsent, hrs⟩ := ih u
    refine ⟨t, qs ++ rs, fun ms' => ?_, ?_, ?_⟩
    · exact (State.serve_cons (hstep (ms ++ ms')) rfl).trans (hserve ms')
    · rw [htsent, husent, List.append_assoc]
    · rw [List.length_append, hqs, hrs, ← List.length_append, ← List.filter_append, List.singleton_append]

/-- Settles O41: the run over `ms` ends where the run over `ms ++ ms'` has `ms'` left, and the latter ends. -/
theorem runsTakeEverythingInOrder : Obligations.RunsTakeEverythingInOrder := by
  intro s ms ms'
  obtain ⟨t, rs, hserve, hsent, hrs⟩ := serve_takes_moves s ms
  obtain ⟨u, -, hserve', -⟩ := serve_takes_moves t ms'
  have hend : (s.withInbox ms).serve = .next (t.withInbox []) := by
    simpa using hserve []
  have hend' : (t.withInbox ms').serve = .next (u.withInbox []) := by
    simpa using hserve' []
  refine ⟨t.withInbox [], u.withInbox [], hend, rfl, ⟨rs, hsent.symm⟩, ?_, (hserve ms').trans hend', hend'⟩
  rw [State.withInbox_sent, hsent, List.length_append, hrs]

end Sys2Proof.Machine
end

section
/-! SUPPORT. The decoder (spec/30_encoding.md R61, R64 to R67): a word decodes to `i` exactly when its control byte
is `i`'s and `i`'s operands are the bits of its data field that R66 lists. -/

namespace Sys2Proof

/-! ## Control byte and data field -/

@[simp] theorem ctlOf_append (ctl : Byte) (d : DWord) : ctlOf (ctl ++ d) = ctl := BitVec.extractLsb'_append_eq_left

@[simp] theorem dataOf_append (ctl : Byte) (d : DWord) : dataOf (ctl ++ d) = d := BitVec.extractLsb'_append_eq_right

/-- A command word is its control byte and its data (R61). -/
theorem ctlOf_append_dataOf (w : CmdWord) : ctlOf w ++ dataOf w = w :=
  (BitVec.extractLsb'_append_extractLsb'_eq_extractLsb' rfl).trans BitVec.extractLsb'_eq_self

/-- The control byte of a command's word (R61). -/
def controlByte (i : Instr) : Byte := (encodeFields i).op ++ (encodeFields i).rsv ++ (encodeFields i).n

theorem encode_eq_controlByte_append (i : Instr) : encode i = controlByte i ++ (encodeFields i).d := rfl

theorem controlByte_bswap32 (x : Word) : controlByte (.bswap32 x) = 0x00#8 := by simp [controlByte, encodeFields]
theorem controlByte_bswap64 (x : DWord) : controlByte (.bswap64 x) = 0x10#8 := by simp [controlByte, encodeFields]
theorem controlByte_hash32 (seed : Word) : controlByte (.hash32 seed) = 0x20#8 := by
  simp [controlByte, encodeFields]
theorem controlByte_seed (seed : Word) : controlByte (.seed seed) = 0x40#8 := by simp [controlByte, encodeFields]
theorem controlByte_absorb (w : Word) : controlByte (.absorb w) = 0x50#8 := by simp [controlByte, encodeFields]
theorem controlByte_tail (n : BitVec 2) (w : Word) : controlByte (.tail n w) = 0b011000#6 ++ n := by
  simp [controlByte, encodeFields]
theorem controlByte_digest : controlByte .digest = 0x70#8 := by simp [controlByte, encodeFields]

/-! ## Operands -/

/-- The command of the same kind (and, for TAIL, the same count) whose operand is the bits of `d` that R66's
table lists for it. -/
def Instr.withData (i : Instr) (d : DWord) : Instr :=
  match i with
  | .bswap32 _ => .bswap32 (low32 d)
  | .bswap64 _ => .bswap64 d
  | .hash32 _ => .hash32 (low32 d)
  | .seed _ => .seed (low32 d)
  | .absorb _ => .absorb (low32 d)
  | .tail n _ => .tail n (low32 d)
  | .digest => .digest

/-- The data bits that an operand of a command keeps whole (R66): the ignored bytes of a TAIL's `w` are among
them, because the block masks them later (R107). -/
def operandMask : Op → DWord
  | .bswap64 => BitVec.allOnes 64
  | .digest => 0
  | _ => 0x00000000FFFFFFFF

theorem toNat_low32 (d : DWord) : (low32 d).toNat = d.toNat % 2 ^ 32 := by
  rw [low32, BitVec.extractLsb'_toNat, Nat.shiftRight_zero]

theorem zext64_low32 (d : DWord) : zext64 (low32 d) = d &&& 0x00000000FFFFFFFF#64 := by
  refine BitVec.eq_of_toNat_eq ?_
  have hmask : (0x00000000FFFFFFFF#64).toNat = 2 ^ 32 - 1 := rfl
  rw [BitVec.toNat_and, hmask, Nat.and_two_pow_sub_one_eq_mod, zext64, BitVec.toNat_setWidth, toNat_low32]
  omega

/-- The assembler's data field of a command whose operand was taken from `d`. -/
theorem encodeFields_withData_d (i : Instr) (d : DWord) :
    (encodeFields (i.withData d)).d = d &&& operandMask (opOfInstr i) := by
  cases i with
  | bswap64 x => exact BitVec.and_allOnes.symm
  | digest => exact BitVec.and_zero.symm
  | bswap32 _ | hash32 _ | seed _ | absorb _ | tail _ _ => exact zext64_low32 d

/-! ## What decodes to a command -/

/-- The operation code of a row (R64). -/
def Op.code : Op → BitVec 4
  | .bswap32 => 0x0#4
  | .bswap64 => 0x1#4
  | .hash32 => 0x2#4
  | .seed => 0x4#4
  | .absorb => 0x5#4
  | .tail => 0x6#4
  | .digest => 0x7#4

theorem opOf_eq_some_iff (op : BitVec 4) (o : Op) : opOf op = some o ↔ op = o.code := by
  cases o <;> revert op <;> decide

theorem withoutCount_eq_ok {r : RawCommand} {i j : Instr} (h : withoutCount r i = .ok j) : r.n = 0#2 ∧ j = i := by
  rw [withoutCount] at h
  split at h
  · exact ⟨‹_›, (Except.ok.inj h).symm⟩
  · cases h

/-- The fields that decode to a command are those the assembler writes, but for the ignored data bits. -/
theorem fields_of_decodeFields_eq_ok {r : RawCommand} {i : Instr} (h : decodeFields r = .ok i) :
    r = { encodeFields i with d := r.d } ∧ i = i.withData r.d := by
  obtain ⟨op, rsv, n, d⟩ := r
  simp only [decodeFields] at h
  cases hop : opOf op with
  | none => simp [hop] at h
  | some o =>
    obtain rfl := (opOf_eq_some_iff op o).mp hop
    simp only [hop] at h
    split at h
    case isFalse => cases h
    case isTrue hrsv =>
      obtain rfl : rsv = 0#2 := hrsv
      cases o with
      | tail =>
        obtain rfl := Except.ok.inj h
        exact ⟨rfl, rfl⟩
      | bswap32 | bswap64 | hash32 | seed | absorb | digest =>
        obtain ⟨hn, rfl⟩ := withoutCount_eq_ok h
        obtain rfl : n = 0#2 := hn
        exact ⟨rfl, rfl⟩

/-- A word with a command's control byte decodes to that command, with its operand taken from the word's data. -/
theorem decode_of_ctlOf_eq {w : CmdWord} {i : Instr} (h : ctlOf w = controlByte i) :
    decode w = .ok (i.withData (dataOf w)) := by
  have hw : w = wordOf { encodeFields i with d := dataOf w } := by
    rw [← ctlOf_append_dataOf w, h, dataOf_append]
    rfl
  rw [hw, decode_wordOf, ← hw]
  cases i <;> simp [encodeFields, decodeFields, opOf, withoutCount, Instr.withData]

/-- The decoder, said once: the control byte names the command, and for TAIL its count; the data field gives the
operand. -/
theorem decode_eq_ok_iff (w : CmdWord) (i : Instr) :
    decode w = .ok i ↔ ctlOf w = controlByte i ∧ i = i.withData (dataOf w) := by
  constructor
  · intro h
    obtain ⟨hfields, hi⟩ := fields_of_decodeFields_eq_ok (r := fieldsOf w) h
    have hw : w = controlByte i ++ dataOf w := by
      conv_lhs => rw [← wordOf_fieldsOf w, hfields]
      rfl
    exact ⟨by rw [hw, ctlOf_append], hi⟩
  · rintro ⟨hctl, hi⟩
    rw [decode_of_ctlOf_eq hctl, ← hi]

/-- A word is legal exactly when its control byte is some command's. -/
theorem decode_isOk_iff_ctlOf (w : CmdWord) : (∃ i, decode w = .ok i) ↔ ∃ i, ctlOf w = controlByte i :=
  ⟨fun ⟨i, h⟩ => ⟨i, ((decode_eq_ok_iff w i).mp h).1⟩, fun ⟨_, h⟩ => ⟨_, decode_of_ctlOf_eq h⟩⟩

theorem decode_append_of_controlByte_eq {ctl : Byte} {i : Instr} (h : controlByte i = ctl) (d : DWord) :
    decode (ctl ++ d) = .ok (i.withData d) := by
  rw [decode_of_ctlOf_eq ((ctlOf_append ctl d).trans h.symm), dataOf_append]

/-- The control byte of a command that a word decodes to. -/
theorem controlByte_of_decode_append {ctl : Byte} {d : DWord} {i : Instr} (h : decode (ctl ++ d) = .ok i) :
    controlByte i = ctl := by
  rw [← ((decode_eq_ok_iff _ i).mp h).1, ctlOf_append]

/-- With another data field the same control byte gives the same kind of command, the operand taken from the new
field. -/
theorem decode_append_of_decode_append {ctl : Byte} {d : DWord} {i : Instr} (h : decode (ctl ++ d) = .ok i)
    (d' : DWord) : decode (ctl ++ d') = .ok (i.withData d') :=
  decode_append_of_controlByte_eq (controlByte_of_decode_append h) d'

/-! ## What decodes to none -/

/-- A word that decodes to no command has an error. -/
theorem decode_isError_iff (w : CmdWord) : (∃ e, decode w = .error e) ↔ ¬ ∃ i, decode w = .ok i := by
  cases decode w <;> simp

/-- R67's causes, field by field. -/
theorem RawCommand.not_legal_iff (r : RawCommand) :
    ¬ r.legal = true ↔ (r.op = 0x3#4 ∨ 0x8#4 ≤ r.op) ∨ r.rsv ≠ 0#2 ∨ (r.n ≠ 0#2 ∧ r.op ≠ 0x6#4) := by
  simp only [RawCommand.legal, RawCommand.opReserved, RawCommand.rsvSet, RawCommand.countMisplaced,
    Bool.not_eq_true', Bool.not_eq_false, Bool.or_eq_true, Bool.and_eq_true, beq_iff_eq, bne_iff_ne,
    decide_eq_true_eq, or_assoc]

end Sys2Proof
end

section
/-! The statements about encoding and decoding (spec/30_encoding.md R65, R66, R70). -/

namespace Sys2Proof

open Sys2Proof.Machine

/-- Settles O1: the ten words, evaluated. -/
theorem specWordsDecode : Obligations.SpecWordsDecode := by
  unfold Obligations.SpecWordsDecode
  decide

/-- Settles O2: the decoder takes the word apart into the fields it was put together from, and reads each
operand back from its zero-extension. -/
theorem decodeOfEncode : Obligations.DecodeOfEncode := decode_encode

/-! ## The assembler's word of a decoded command -/

/-- The assembler keeps the control byte and the operand's bits of the data field. -/
theorem encode_of_decode {w : CmdWord} {i : Instr} (h : decode w = .ok i) :
    encode i = w &&& (0xFF#8 ++ operandMask (opOfInstr i)) := by
  obtain ⟨hctl, hi⟩ := (decode_eq_ok_iff w i).mp h
  have hdata : (encodeFields i).d = dataOf w &&& operandMask (opOfInstr i) := by
    conv_lhs => rw [hi]
    exact encodeFields_withData_d i (dataOf w)
  have hkeep : ctlOf w &&& 0xFF#8 = ctlOf w := BitVec.and_allOnes
  calc encode i = ctlOf w ++ (dataOf w &&& operandMask (opOfInstr i)) := by
        rw [encode_eq_controlByte_append, hctl, hdata]
    _ = (ctlOf w ++ dataOf w) &&& (0xFF#8 ++ operandMask (opOfInstr i)) := by rw [BitVec.and_append, hkeep]
    _ = w &&& (0xFF#8 ++ operandMask (opOfInstr i)) := by rw [ctlOf_append_dataOf]

/-- Settles O3: the statement's three masks are the control byte and the operand's data bits. -/
theorem encodeOfDecodeClearsUpperData : Obligations.EncodeOfDecodeClearsUpperData := by
  intro w i h
  rw [encode_of_decode h]
  cases opOfInstr i <;> rfl

/-! ## Legality and the opcode table -/

/-- The ten control bytes of R65's table. -/
def legalControlBytes : List Byte := [0x00, 0x10, 0x20, 0x40, 0x50, 0x60, 0x61, 0x62, 0x63, 0x70]

/-- The control bytes of the commands are the ten of R65's table. -/
theorem exists_controlByte_iff_mem (ctl : Byte) : (∃ i, ctl = controlByte i) ↔ ctl ∈ legalControlBytes := by
  constructor
  · rintro ⟨i, rfl⟩
    cases i with
    | bswap32 x => rw [controlByte_bswap32]; decide
    | bswap64 x => rw [controlByte_bswap64]; decide
    | hash32 seed => rw [controlByte_hash32]; decide
    | seed seed => rw [controlByte_seed]; decide
    | absorb w => rw [controlByte_absorb]; decide
    | tail n w => rw [controlByte_tail]; revert n; decide
    | digest => rw [controlByte_digest]; decide
  · simp only [legalControlBytes, List.mem_cons, List.not_mem_nil, or_false]
    rintro (rfl | rfl | rfl | rfl | rfl | rfl | rfl | rfl | rfl | rfl)
    · exact ⟨.bswap32 0, (controlByte_bswap32 0).symm⟩
    · exact ⟨.bswap64 0, (controlByte_bswap64 0).symm⟩
    · exact ⟨.hash32 0, (controlByte_hash32 0).symm⟩
    · exact ⟨.seed 0, (controlByte_seed 0).symm⟩
    · exact ⟨.absorb 0, (controlByte_absorb 0).symm⟩
    · exact ⟨.tail 0 0, (controlByte_tail 0 0).symm⟩
    · exact ⟨.tail 1 0, (controlByte_tail 1 0).symm⟩
    · exact ⟨.tail 2 0, (controlByte_tail 2 0).symm⟩
    · exact ⟨.tail 3 0, (controlByte_tail 3 0).symm⟩
    · exact ⟨.digest, controlByte_digest.symm⟩

/-- The table's masks and matches look at the control byte alone. -/
theorem opcodeTable_data_zero :
    ∀ row ∈ opcodeTable, row.mask = ctlOf row.mask ++ 0#64 ∧ row.mtch = ctlOf row.mtch ++ 0#64 := by decide

theorem and_mask_eq_mtch_iff {row : OpcodeRow} (hrow : row ∈ opcodeTable) (w : CmdWord) :
    w &&& row.mask = row.mtch ↔ ctlOf w &&& ctlOf row.mask = ctlOf row.mtch := by
  obtain ⟨hmask, hmtch⟩ := opcodeTable_data_zero row hrow
  have hand : w &&& row.mask = (ctlOf w &&& ctlOf row.mask) ++ 0#64 := by
    conv_lhs => rw [hmask, ← ctlOf_append_dataOf w, BitVec.and_append, BitVec.and_zero]
  rw [hand, hmtch, BitVec.append_left_inj, ctlOf_append]

/-- The row of a command selects its control byte. -/
theorem controlByte_selected (i : Instr) :
    ∀ row ∈ opcodeTable, opOfInstr i = row.op → controlByte i &&& ctlOf row.mask = ctlOf row.mtch := by
  cases i with
  | bswap32 x => rw [controlByte_bswap32, opOfInstr]; decide
  | bswap64 x => rw [controlByte_bswap64, opOfInstr]; decide
  | hash32 seed => rw [controlByte_hash32, opOfInstr]; decide
  | seed seed => rw [controlByte_seed, opOfInstr]; decide
  | absorb w => rw [controlByte_absorb, opOfInstr]; decide
  | tail n w => rw [controlByte_tail, opOfInstr]; revert n; decide
  | digest => rw [controlByte_digest, opOfInstr]; decide

/-- No two rows select one word: where both masks have a bit, their matches differ. -/
theorem opcodeTable_rows_differ :
    ∀ r₁ ∈ opcodeTable, ∀ r₂ ∈ opcodeTable, r₁.mtch &&& r₂.mask = r₂.mtch &&& r₁.mask → r₁ = r₂ := by decide

theorem row_eq_of_both_select {w : CmdWord} {r₁ r₂ : OpcodeRow} (h₁ : r₁ ∈ opcodeTable) (h₂ : r₂ ∈ opcodeTable)
    (hw₁ : w &&& r₁.mask = r₁.mtch) (hw₂ : w &&& r₂.mask = r₂.mtch) : r₁ = r₂ := by
  refine opcodeTable_rows_differ r₁ h₁ r₂ h₂ ?_
  rw [← hw₁, ← hw₂, BitVec.and_assoc, BitVec.and_assoc, BitVec.and_comm r₁.mask]

/-- Every command has a row. -/
theorem exists_row_of_instr (i : Instr) : ∃ row ∈ opcodeTable, opOfInstr i = row.op := by
  cases opOfInstr i <;> decide

/-- A row selects legal control bytes only. -/
theorem mem_legalControlBytes_of_selected :
    ∀ row ∈ opcodeTable, ∀ ctl : Byte, ctl &&& ctlOf row.mask = ctlOf row.mtch → ctl ∈ legalControlBytes := by decide

/-- The row of a command selects every word that decodes to it. -/
theorem selected_of_decode {w : CmdWord} {i : Instr} {row : OpcodeRow} (hd : decode w = .ok i)
    (hrow : row ∈ opcodeTable) (hop : opOfInstr i = row.op) : w &&& row.mask = row.mtch := by
  rw [and_mask_eq_mtch_iff hrow, ((decode_eq_ok_iff w i).mp hd).1]
  exact controlByte_selected i row hrow hop

/-- A row selects exactly the words of its command: what it selects is legal, and no row but the command's own
selects it too. -/
theorem selected_iff_decodes {row : OpcodeRow} (hrow : row ∈ opcodeTable) (w : CmdWord) :
    w &&& row.mask = row.mtch ↔ ∃ i, decode w = .ok i ∧ opOfInstr i = row.op := by
  constructor
  · intro hsel
    have hmem : ctlOf w ∈ legalControlBytes :=
      mem_legalControlBytes_of_selected row hrow _ ((and_mask_eq_mtch_iff hrow w).mp hsel)
    obtain ⟨i, hd⟩ := (decode_isOk_iff_ctlOf w).mpr ((exists_controlByte_iff_mem _).mpr hmem)
    obtain ⟨row', hrow', hop⟩ := exists_row_of_instr i
    obtain rfl := row_eq_of_both_select hrow hrow' hsel (selected_of_decode hd hrow' hop)
    exact ⟨i, hd, hop⟩
  · rintro ⟨i, hd, hop⟩
    exact selected_of_decode hd hrow hop

/-- Settles O4: the ten control bytes, the seven rows, their disjointness, and the control byte of what a word
decodes to. -/
theorem controlByteDecidesLegality : Obligations.ControlByteDecidesLegality := by
  refine ⟨fun w => ?_, by decide, fun w row hrow => selected_iff_decodes hrow w,
    fun w r₁ r₂ h₁ h₂ => row_eq_of_both_select h₁ h₂, fun w i hd => ?_⟩
  · rw [decode_isOk_iff_ctlOf]
    exact exists_controlByte_iff_mem (ctlOf w)
  · rw [← ctlOf, ((decode_eq_ok_iff w i).mp hd).1]
    cases i with
    | bswap32 x => exact controlByte_bswap32 x
    | bswap64 x => exact controlByte_bswap64 x
    | hash32 seed => exact controlByte_hash32 seed
    | seed seed => exact controlByte_seed seed
    | absorb w => exact controlByte_absorb w
    | tail n w =>
      have hsum : ∀ n : BitVec 2, 0b011000#6 ++ n = 0x60#8 + n.setWidth 8 := by decide
      exact (controlByte_tail n w).trans (hsum n)
    | digest => exact controlByte_digest

end Sys2Proof
end

section
/-! The statements about one step on a command word (spec/30_encoding.md R62, R63, R66, R67;
spec/60_exceptions.md R141). -/

namespace Sys2Proof.Machine

/-- Settles O7: the one thing around a legal command is that its word is taken. -/
theorem stepRunsDecodedCommand : Obligations.StepRunsDecodedCommand := by
  intro s w rest i hin hd
  rw [← State.withInbox_self s, hin, step_command, runWord_of_decode_ok hd]
  rfl

/-! ## Illegal words -/

/-- Settles O5: R67's causes are the decoder's errors, and an illegal word does no more than add the response
of R141. -/
theorem illegalWordIsAnsweredAndHarmless : Obligations.IllegalWordIsAnsweredAndHarmless := by
  intro w
  have hcauses : (∃ e, decode w = .error e) ↔
      (((fieldsOf w).op = 0x3#4 ∨ 0x8#4 ≤ (fieldsOf w).op) ∨ (fieldsOf w).rsv ≠ 0#2
        ∨ ((fieldsOf w).n ≠ 0#2 ∧ (fieldsOf w).op ≠ 0x6#4)) := by
    rw [decode_isError_iff, decode_isOk_iff_legal]
    exact RawCommand.not_legal_iff (fieldsOf w)
  refine ⟨hcauses, fun hcause s rest => ?_⟩
  obtain ⟨e, hd⟩ := hcauses.mpr hcause
  refine ⟨.illegal, by decide, ?_⟩
  rw [step_command, runWord_of_decode_error hd]
  rfl

/-! ## Ignored bits -/

/-- How many of the low data bits a command uses (R66). -/
def usedBits : Instr → Nat
  | .bswap64 _ => 64
  | .digest => 0
  | .tail n _ => 8 * n.toNat
  | _ => 32

/-- The statement's count of used bits, read from the control byte, is the command's. -/
theorem usedBits_of_controlByte (i : Instr) :
    (if controlByte i = 0x10#8 then 64
      else if controlByte i = 0x70#8 then 0
      else if (controlByte i).extractLsb' 2 6 = 0b011000#6 then 8 * ((controlByte i).extractLsb' 0 2).toNat
      else 32) = usedBits i := by
  cases i with
  | bswap32 x => rw [controlByte_bswap32]; rfl
  | bswap64 x => rw [controlByte_bswap64]; rfl
  | hash32 seed => rw [controlByte_hash32]; rfl
  | seed seed => rw [controlByte_seed]; rfl
  | absorb w => rw [controlByte_absorb]; rfl
  | tail n w =>
    have hne : ∀ n : BitVec 2, 0b011000#6 ++ n ≠ 0x10#8 ∧ 0b011000#6 ++ n ≠ 0x70#8 := by decide
    rw [controlByte_tail, if_neg (hne n).1, if_neg (hne n).2, if_pos BitVec.extractLsb'_append_eq_left,
      BitVec.extractLsb'_append_eq_right]
    rfl
  | digest => rw [controlByte_digest]; rfl

/-- Data fields that agree on their low `m` bits have the same value modulo `2 ^ m`. -/
theorem toNat_mod_two_pow_congr {d d' : DWord} {m : Nat} (h : ∀ k, k < m → d.getLsbD k = d'.getLsbD k) :
    d.toNat % 2 ^ m = d'.toNat % 2 ^ m := by
  refine Nat.eq_of_testBit_eq fun k => ?_
  rw [Nat.testBit_mod_two_pow, Nat.testBit_mod_two_pow, BitVec.testBit_toNat, BitVec.testBit_toNat]
  by_cases hk : k < m
  · rw [h k hk]
  · simp [hk]

theorem low32_congr {d d' : DWord} (h : ∀ k, k < 32 → d.getLsbD k = d'.getLsbD k) : low32 d = low32 d' := by
  refine BitVec.eq_of_toNat_eq ?_
  rw [toNat_low32, toNat_low32, toNat_mod_two_pow_congr h]

/-- The masked word of a TAIL depends on the low `n` bytes of the data field only (R104). -/
theorem tailWord_low32_congr {n : BitVec 2} {d d' : DWord}
    (h : ∀ k, k < 8 * n.toNat → d.getLsbD k = d'.getLsbD k) : tailWord n (low32 d) = tailWord n (low32 d') := by
  have hdvd : 2 ^ (8 * n.toNat) ∣ 2 ^ 32 := Nat.pow_dvd_pow 2 (by have := n.isLt; omega)
  refine BitVec.eq_of_toNat_eq ?_
  rw [toNat_tailWord, toNat_tailWord, toNat_low32, toNat_low32, Nat.mod_mod_of_dvd _ hdvd, Nat.mod_mod_of_dvd _ hdvd,
    toNat_mod_two_pow_congr h]

/-- A command does the same with operands from data fields that agree on the bits it uses. -/
theorem exec_withData_congr {i : Instr} {d d' : DWord}
    (h : ∀ k, k < usedBits i → d.getLsbD k = d'.getLsbD k) (s : State) :
    exec (i.withData d) s = exec (i.withData d') s := by
  cases i with
  | bswap64 x =>
    obtain rfl : d = d' := BitVec.eq_of_getLsbD_eq fun k hk => h k hk
    rfl
  | digest => rfl
  | tail n w =>
    have htail : tailState n (low32 d) s.h = tailState n (low32 d') s.h := by
      rw [tailState, tailState, tailWord_low32_congr h]
    rw [Instr.withData, Instr.withData, exec_tail, exec_tail, htail]
  | bswap32 _ | hash32 _ | seed _ | absorb _ =>
    rw [Instr.withData, Instr.withData, low32_congr h]

/-- A legal word does the same when its data field changes in ignored bits only. -/
theorem runWord_append_congr {ctl : Byte} {d d' : DWord} {i : Instr} (hd : decode (ctl ++ d) = .ok i)
    (h : ∀ k, k < usedBits i → d.getLsbD k = d'.getLsbD k) (s : State) :
    runWord (ctl ++ d) s = runWord (ctl ++ d') s := by
  rw [runWord_of_decode_ok (decode_append_of_decode_append hd d),
    runWord_of_decode_ok (decode_append_of_decode_append hd d')]
  exact exec_withData_congr h s

/-- Settles O6: a legal word's control byte fixes the command and the bits it uses; an illegal word stays illegal
whatever its data. -/
theorem operandsAndIgnoredBits : Obligations.OperandsAndIgnoredBits := by
  refine ⟨fun d => ⟨decode_append_of_controlByte_eq (controlByte_bswap32 0) d,
    decode_append_of_controlByte_eq (controlByte_bswap64 0) d,
    decode_append_of_controlByte_eq (controlByte_hash32 0) d,
    decode_append_of_controlByte_eq (controlByte_seed 0) d,
    decode_append_of_controlByte_eq (controlByte_absorb 0) d,
    fun n => decode_append_of_controlByte_eq (controlByte_tail n 0) d,
    decode_append_of_controlByte_eq controlByte_digest d⟩, fun s rest ctl d d' h => ?_⟩
  rw [step_command, step_command]
  cases hd : decode (ctl ++ d) with
  | ok i =>
    rw [← controlByte_of_decode_append hd, usedBits_of_controlByte i] at h
    exact runWord_append_congr hd h _
  | error e =>
    cases hd' : decode (ctl ++ d') with
    | ok i =>
      have hok := decode_append_of_decode_append hd' d
      rw [hd] at hok
      cases hok
    | error e' => rw [runWord_of_decode_error hd, runWord_of_decode_error hd']

/-! ## The response word -/

/-- Bits 63 to 0 of a response word are `r` (R63). -/
theorem Response.word_low (r : Response) : r.word.extractLsb' 0 64 = r.r := BitVec.extractLsb'_append_eq_right

/-- Bits 67 to 64 of a response word are the status (R63). -/
theorem Response.word_high (r : Response) : r.word.extractLsb' 64 4 = r.status.code :=
  BitVec.extractLsb'_append_eq_left

/-- Bits 63 to 32 of a response word are the upper half of `r`. -/
theorem Response.word_upper (r : Response) : r.word.extractLsb' 32 32 = r.r.extractLsb' 32 32 :=
  BitVec.extractLsb'_append_eq_of_add_le (by omega)

theorem extractLsb'_zext64_upper (v : Word) : (zext64 v).extractLsb' 32 32 = 0#32 := by
  refine BitVec.eq_of_getLsbD_eq fun k hk => ?_
  simp [zext64]

/-- Every command but BSWAP64 answers a zero-extended 32-bit value (R63). -/
theorem exec_completes_narrow {i : Instr} (hi : ∀ x, i ≠ .bswap64 x) (s : State) :
    ∃ h v, exec i s = .next ((s.writeH h).respond (.ok32 v)) := by
  cases i with
  | bswap64 x => exact absurd rfl (hi x)
  | bswap32 x => exact ⟨s.h, _, exec_bswap32 x s⟩
  | hash32 seed =>
    obtain ⟨a, ha⟩ := hashView_defined s.buf seed
    exact ⟨a, _, exec_hash32_of_hashView ha⟩
  | seed seed => exact ⟨_, _, exec_seed seed s⟩
  | absorb w => exact ⟨_, _, exec_absorb w s⟩
  | tail n w => exact ⟨_, _, exec_tail n w s⟩
  | digest => exact ⟨s.h, _, exec_digest s⟩

/-- The response to a command is OK, and only BSWAP64's can have a nonzero upper half. -/
theorem exec_response (i : Instr) (s : State) :
    ∃ t r, exec i s = .next t ∧ t.sent = s.sent ++ [⟨.ok, r⟩]
      ∧ (controlByte i ≠ 0x10#8 → r.extractLsb' 32 32 = 0#32) := by
  by_cases hi : ∃ x, i = .bswap64 x
  · obtain ⟨x, rfl⟩ := hi
    exact ⟨_, _, exec_bswap64 x s, rfl, fun hne => absurd (controlByte_bswap64 x) hne⟩
  · obtain ⟨h, v, heq⟩ := exec_completes_narrow (fun x hx => hi ⟨x, hx⟩) s
    exact ⟨_, _, heq, rfl, fun _ => extractLsb'_zext64_upper v⟩

/-- Settles O10: a legal word has its command's response, an illegal one R141's. -/
theorem oneResponsePerCommandWord : Obligations.OneResponsePerCommandWord := by
  intro s w rest
  rw [step_command]
  cases hd : decode w with
  | ok i =>
    obtain ⟨t, r, hexec, hsent, hupper⟩ := exec_response i (s.withInbox rest)
    refine ⟨t, ⟨.ok, r⟩, (runWord_of_decode_ok hd _).trans hexec, hsent, Response.word_low _,
      fun _ _ => Response.word_high _, fun _ he => (nomatch he), fun hctl => ?_⟩
    rw [Response.word_upper]
    exact hupper (((decode_eq_ok_iff w i).mp hd).1 ▸ hctl)
  | error e =>
    exact ⟨_, .illegal, runWord_of_decode_error hd _, rfl, Response.word_low _, fun _ hi => (nomatch hi),
      fun _ _ => Response.word_high _, fun _ => by decide⟩

end Sys2Proof.Machine
end

section
/-! SUPPORT. The bytes of a value (spec/00_scope.md R7): they determine it, and how the bitwise operations,
the shifts by whole bytes and the halves act on them. -/

namespace Sys2Proof

theorem getLsbD_byteOf {k i : Nat} (j : Nat) (v : BitVec k) (hi : i < 8) :
    (byteOf j v).getLsbD i = v.getLsbD (8 * j + i) := by
  simp [byteOf, hi]

/-- A value is determined by its bytes. -/
theorem eq_iff_byteOf_eq {k m : Nat} (hk : k ≤ 8 * m) {x y : BitVec k} :
    x = y ↔ ∀ j, j < m → byteOf j x = byteOf j y := by
  refine ⟨fun h j _ => by rw [h], fun h => BitVec.eq_of_getLsbD_eq fun i hi => ?_⟩
  have hmod : i % 8 < 8 := Nat.mod_lt i (by decide)
  rw [← Nat.div_add_mod i 8, ← getLsbD_byteOf _ x hmod, ← getLsbD_byteOf _ y hmod, h (i / 8) (by omega)]

theorem byteOf_and {k : Nat} (j : Nat) (x y : BitVec k) : byteOf j (x &&& y) = byteOf j x &&& byteOf j y :=
  BitVec.extractLsb'_and

theorem byteOf_or {k : Nat} (j : Nat) (x y : BitVec k) : byteOf j (x ||| y) = byteOf j x ||| byteOf j y :=
  BitVec.extractLsb'_or

/-- A left shift by `m` bytes moves every byte that stays inside the value `m` places up. -/
theorem byteOf_add_shiftLeft {k j m : Nat} (hk : 8 * (j + m + 1) ≤ k) (x : BitVec k) :
    byteOf (j + m) (x <<< (8 * m)) = byteOf j x := by
  refine BitVec.eq_of_getLsbD_eq fun i hi => ?_
  have hin : 8 * (j + m) + i < k := by omega
  have hge : ¬ 8 * (j + m) + i < 8 * m := by omega
  have hsub : 8 * (j + m) + i - 8 * m = 8 * j + i := by omega
  rw [getLsbD_byteOf _ _ hi, getLsbD_byteOf _ _ hi, BitVec.getLsbD_shiftLeft, hsub]
  simp [hin, hge]

/-- A right shift by `m` bytes moves every byte `m` places down. -/
theorem byteOf_ushiftRight {k : Nat} (j m : Nat) (x : BitVec k) :
    byteOf j (x >>> (8 * m)) = byteOf (j + m) x := by
  refine BitVec.eq_of_getLsbD_eq fun i hi => ?_
  rw [getLsbD_byteOf _ _ hi, getLsbD_byteOf _ _ hi, BitVec.getLsbD_ushiftRight]
  congr 1
  omega

theorem byteOf_append_of_lt {j : Nat} (hj : j < 4) (hi lo : Word) : byteOf j (hi ++ lo) = byteOf j lo :=
  BitVec.extractLsb'_append_eq_of_add_le (by omega)

theorem byteOf_append_of_ge {j : Nat} (hj : 4 ≤ j) (hi lo : Word) :
    byteOf j (hi ++ lo) = byteOf (j - 4) hi := by
  have hsub : 8 * j - 32 = 8 * (j - 4) := by omega
  rw [byteOf, BitVec.extractLsb'_append_eq_of_le (by omega), hsub, byteOf]

/-- The bytes of a half of a 64-bit value are four bytes of that value. -/
theorem byteOf_half {j : Nat} (hj : j < 4) (q : Nat) (x : DWord) :
    byteOf j (x.extractLsb' (8 * q) 32) = byteOf (q + j) x := by
  refine BitVec.eq_of_getLsbD_eq fun i hi => ?_
  have hin : 8 * j + i < 32 := by omega
  have hadd : 8 * q + (8 * j + i) = 8 * (q + j) + i := by omega
  simp [getLsbD_byteOf _ _ hi, hin, hadd]

/-- A word moved to the upper half has zeros below it. -/
theorem zext64_shiftLeft (v : Word) : zext64 v <<< 32 = v ++ 0#32 := by
  have h := BitVec.setWidth_append_eq_shiftLeft_setWidth_or (b := v) (b' := 0#32) (w'' := 64)
  rw [BitVec.setWidth_zero, BitVec.or_zero, BitVec.setWidth_eq] at h
  exact h.symm

/-- A zero-extended word has zeros above it. -/
theorem zext64_eq_append (v : Word) : zext64 v = 0#32 ++ v := BitVec.setWidth_eq_append (by decide)

end Sys2Proof
end

section
/-! SUPPORT. The byte swaps, byte by byte (spec/40_byteswap.md R90 to R92). -/

namespace Sys2Proof.Machine

/-- `f` reverses the order of the `m` bytes of a value. -/
def ReversesBytes {k : Nat} (m : Nat) (f : BitVec k → BitVec k) : Prop :=
  ∀ (x : BitVec k) (j : Nat), j < m → byteOf j (f x) = byteOf (m - 1 - j) x

section
variable {k m : Nat} {f : BitVec k → BitVec k}

/-- Bits that keep their place in a byte whose place is reversed. -/
theorem reversesBytes_of_getLsbD (hk : k = 8 * m)
    (h : ∀ (x : BitVec k) {i : Nat}, i < k → (f x).getLsbD i = x.getLsbD (8 * (m - 1 - i / 8) + i % 8)) :
    ReversesBytes m f := by
  intro x j hj
  refine BitVec.eq_of_getLsbD_eq fun i hi => ?_
  have hdiv : (8 * j + i) / 8 = j := by omega
  have hmod : (8 * j + i) % 8 = i := by omega
  rw [getLsbD_byteOf _ _ hi, getLsbD_byteOf _ _ hi, h x (by omega), hdiv, hmod]

theorem ReversesBytes.involutive (h : ReversesBytes m f) (hk : k ≤ 8 * m) : Function.Involutive f := by
  intro x
  refine (eq_iff_byteOf_eq hk).mpr fun j hj => ?_
  rw [h _ _ hj, h _ _ (by omega), Nat.sub_sub_self (by omega)]

/-- The fixed points of a byte reversal are the palindromes (R92). -/
theorem ReversesBytes.eq_self_iff (h : ReversesBytes m f) (hk : k ≤ 8 * m) (x : BitVec k) :
    f x = x ↔ ∀ j, j < m → byteOf j x = byteOf (m - 1 - j) x := by
  rw [eq_comm, eq_iff_byteOf_eq hk]
  exact forall₂_congr fun j hj => by rw [h x j hj]

/-- Bit `b` of byte `j` goes to bit `b` of the byte opposite (R92). -/
theorem ReversesBytes.getLsbD (h : ReversesBytes m f) (x : BitVec k) {j b : Nat} (hj : j < m) (hb : b < 8) :
    (f x).getLsbD (8 * (m - 1 - j) + b) = x.getLsbD (8 * j + b) := by
  rw [← getLsbD_byteOf _ _ hb, ← getLsbD_byteOf _ _ hb, h x _ (by omega), Nat.sub_sub_self (by omega)]

end

theorem bswap32_reversesBytes : ReversesBytes 4 bswap32 := reversesBytes_of_getLsbD (by decide) getLsbD_bswap32

theorem bswap64_reversesBytes : ReversesBytes 8 bswap64 := reversesBytes_of_getLsbD (by decide) getLsbD_bswap64

theorem byteOf_bswap32 (x : Word) {j : Nat} (hj : j < 4) : byteOf j (bswap32 x) = byteOf (3 - j) x :=
  bswap32_reversesBytes x j hj

theorem byteOf_bswap64 (x : DWord) {j : Nat} (hj : j < 8) : byteOf j (bswap64 x) = byteOf (7 - j) x :=
  bswap64_reversesBytes x j hj

theorem bswap32_involutive : Function.Involutive bswap32 := bswap32_reversesBytes.involutive (by decide)

theorem bswap64_involutive : Function.Involutive bswap64 := bswap64_reversesBytes.involutive (by decide)

/-- The shift-mask-or form (R90): each mask keeps one byte of its shift, and byte `j` of the result is the one that
the mask of byte `j` keeps. -/
theorem bswap32_eq_shiftMaskOr (x : Word) :
    bswap32 x = (((x <<< 24) &&& 0xFF000000) ||| ((x <<< 8) &&& 0x00FF0000))
      ||| (((x >>> 8) &&& 0x0000FF00) ||| ((x >>> 24) &&& 0x000000FF)) := by
  refine (eq_iff_byteOf_eq (m := 4) (by decide)).mpr fun j hj => ?_
  have hkeep (b : Byte) : b &&& 0xFF#8 = b := BitVec.and_allOnes
  rw [byteOf_bswap32 x hj]
  simp only [byteOf_or, byteOf_and]
  interval_cases j
  · have hbyte : byteOf 0 (x >>> 24) = byteOf 3 x := byteOf_ushiftRight 0 3 x
    rw [hbyte]
    simp [byteOf, hkeep]
  · have hbyte : byteOf 1 (x >>> 8) = byteOf 2 x := byteOf_ushiftRight 1 1 x
    rw [hbyte]
    simp [byteOf, hkeep]
  · have hbyte : byteOf 2 (x <<< 8) = byteOf 1 x := byteOf_add_shiftLeft (j := 1) (m := 1) (by decide) x
    rw [hbyte]
    simp [byteOf, hkeep]
  · have hbyte : byteOf 3 (x <<< 24) = byteOf 0 x := byteOf_add_shiftLeft (j := 0) (m := 3) (by decide) x
    rw [hbyte]
    simp [byteOf, hkeep]

/-- `bswap64` swaps the halves and the bytes of each (R96). -/
theorem bswap64_eq_append (x : DWord) :
    bswap64 x = bswap32 (x.extractLsb' 0 32) ++ bswap32 (x.extractLsb' 32 32) := by
  refine (eq_iff_byteOf_eq (m := 8) (by decide)).mpr fun j hj => ?_
  rw [byteOf_bswap64 x hj]
  by_cases hlow : j < 4
  · have hsum : 4 + (3 - j) = 7 - j := by omega
    rw [byteOf_append_of_lt hlow, byteOf_bswap32 _ hlow, byteOf_half (by omega) 4, hsum]
  · have hsum : 0 + (3 - (j - 4)) = 7 - j := by omega
    rw [byteOf_append_of_ge (by omega), byteOf_bswap32 _ (by omega), byteOf_half (by omega) 0, hsum]

theorem bswap32_zero : bswap32 0#32 = 0#32 := by decide

/-- On a zero-extended word `bswap64` gives the reversed bytes in the upper half (R96). -/
theorem bswap64_zext64 (y : Word) : bswap64 (zext64 y) = bswap32 y ++ 0#32 := by
  have hlow : (zext64 y).extractLsb' 0 32 = y := by
    rw [zext64_eq_append, BitVec.extractLsb'_append_eq_right]
  rw [bswap64_eq_append, hlow, extractLsb'_zext64_upper, bswap32_zero]

end Sys2Proof.Machine
end

section
/-! The statements about the byte swaps (spec/40_byteswap.md R90 to R96). -/

namespace Sys2Proof.Machine

/-- Settles O16: `bswap32` byte by byte, and its shift-mask-or form. -/
theorem bswap32ReversesBytes : Obligations.Bswap32ReversesBytes :=
  fun x => ⟨fun _ hj => byteOf_bswap32 x hj, bswap32_eq_shiftMaskOr x⟩

/-- Settles O17: `bswap64` byte by byte. -/
theorem bswap64ReversesBytes : Obligations.Bswap64ReversesBytes := fun x _ hj => byteOf_bswap64 x hj

/-- Settles O18: reversing twice gives the bytes back, in order; a bit keeps its place in its byte. -/
theorem byteSwapsAreInvolutions : Obligations.ByteSwapsAreInvolutions :=
  ⟨bswap32_involutive, bswap32_involutive.bijective, bswap64_involutive, bswap64_involutive.bijective,
    bswap32_reversesBytes.eq_self_iff (by decide), bswap64_reversesBytes.eq_self_iff (by decide),
    fun x _ _ hj hk => bswap32_reversesBytes.getLsbD x hj hk,
    fun x _ _ hj hk => bswap64_reversesBytes.getLsbD x hj hk⟩

/-- Settles O19: the reversed bytes of a word stand in the upper half of the one result and in the lower half of the
other, so the two agree only where both halves are zero. -/
theorem bswap64FromBswap32 : Obligations.Bswap64FromBswap32 := by
  refine ⟨bswap64_eq_append, fun y => (bswap64_zext64 y).trans (zext64_shiftLeft _).symm, fun y hy heq => hy ?_⟩
  have happend : bswap32 y ++ 0#32 = 0#32 ++ bswap32 y := by
    rw [← bswap64_zext64, ← zext64_eq_append]
    exact heq
  have hzero : bswap32 y = 0#32 := by
    have hupper := congrArg (BitVec.extractLsb' 32 32) happend
    rwa [BitVec.extractLsb'_append_eq_left, BitVec.extractLsb'_append_eq_left] at hupper
  rw [← bswap32_involutive y, hzero, bswap32_zero]
  rfl

/-- A word with a command's control byte takes that command's arm of `exec` (R62). -/
theorem step_command_of_controlByte {ctl : Byte} {i : Instr} (h : controlByte i = ctl) (s : State)
    (rest : List HostMove) (d : DWord) :
    step (s.withInbox (.command (ctl ++ d) :: rest)) = exec (i.withData d) (s.withInbox rest) :=
  (step_command s _ rest).trans (runWord_of_decode_ok (decode_append_of_controlByte_eq h d) _)

/-- Settles O20: the arm of BSWAP32, and the decoder's operand for control byte `0x00`. -/
theorem bswap32Command : Obligations.Bswap32Command := by
  refine ⟨fun x s => ?_, fun s rest d => ?_⟩
  · rw [exec_bswap32, bswap32_eq_shiftMaskOr]
    rfl
  · exact (step_command_of_controlByte (controlByte_bswap32 0) s rest d).trans (exec_bswap32 (low32 d) _)

/-- Settles O21: the arm of BSWAP64, and the decoder's operand for control byte `0x10`. -/
theorem bswap64Command : Obligations.Bswap64Command :=
  ⟨fun x s => ⟨bswap64 x, fun _ hj => byteOf_bswap64 x hj, exec_bswap64 x s⟩,
    fun s rest d => (step_command_of_controlByte (controlByte_bswap64 0) s rest d).trans (exec_bswap64 d _)⟩

end Sys2Proof.Machine
end

section
/-! SUPPORT. The mixing step and the tail mask (spec/41_mixer_stream.md R101 to R104): `mix` is three maps one after
the other, each with its inverse. -/

namespace Sys2Proof.Machine

/-! ## The mixing step -/

/-- Byte `j` of a value is its digit `j` in base 256. -/
theorem toNat_byteOf {k : Nat} (j : Nat) (v : BitVec k) : (byteOf j v).toNat = v.toNat / 256 ^ j % 256 := by
  rw [byteOf, BitVec.extractLsb'_toNat, Nat.shiftRight_eq_div_pow, Nat.pow_mul]

/-- The product, modulo `2 ^ 32` (R101). -/
theorem toNat_mixProduct (x : Word) : (mixProduct x).toNat = 0xE22132C5 * x.toNat % 2 ^ 32 :=
  BitVec.toNat_mul Config.mixMultiplier x

/-- The shift-xor: XOR with the value divided by 32 (R101). -/
theorem toNat_mixShiftXor (a : Word) : (mixShiftXor a).toNat = a.toNat ^^^ (a.toNat / 32) := by
  rw [mixShiftXor, BitVec.toNat_xor, BitVec.toNat_ushiftRight, Nat.shiftRight_eq_div_pow]
  rfl

/-! ## Its inverse -/

/-- The inverse of the multiplier modulo `2 ^ 32` (R103). -/
theorem mixMultiplier_mul_inverse : 0xE22132C5#32 * 0x48657C0D#32 = 1#32 := by decide

theorem mixProduct_bijective : Function.Bijective mixProduct := by
  refine Function.bijective_iff_has_inverse.mpr ⟨fun a => 0x48657C0D#32 * a, fun x => ?_, fun a => ?_⟩
  · calc 0x48657C0D#32 * (0xE22132C5#32 * x)
      _ = 0xE22132C5#32 * 0x48657C0D#32 * x := by ac_rfl
      _ = x := by rw [mixMultiplier_mul_inverse, BitVec.one_mul]
  · calc 0xE22132C5#32 * (0x48657C0D#32 * a)
      _ = 0xE22132C5#32 * 0x48657C0D#32 * a := by ac_rfl
      _ = a := by rw [mixMultiplier_mul_inverse, BitVec.one_mul]

/-- Undoes the shift-xor (R103): its seven shifts reach past bit 31. -/
def unshiftXor (b : Word) : Word :=
  b ^^^ (b >>> 5) ^^^ (b >>> 10) ^^^ (b >>> 15) ^^^ (b >>> 20) ^^^ (b >>> 25) ^^^ (b >>> 30)

/-- The shifts of `a ^ (a >> 5)` telescope: all cancel but `a` itself and `a >> 35`, which is 0. -/
theorem unshiftXor_mixShiftXor (a : Word) : unshiftXor (mixShiftXor a) = a := by
  have hshift (k : Nat) : mixShiftXor a >>> k = (a >>> k) ^^^ (a >>> (k + 5)) := by
    rw [mixShiftXor, BitVec.ushiftRight_xor_distrib, ← BitVec.shiftRight_add, Nat.add_comm k]
    rfl
  have hpast : a >>> 35 = 0#32 := BitVec.ushiftRight_eq_zero (by decide)
  have hcancel (x y z : Word) : x ^^^ y ^^^ (y ^^^ z) = x ^^^ z := by
    rw [BitVec.xor_assoc, ← BitVec.xor_assoc y, BitVec.xor_self, BitVec.zero_xor]
  simp only [unshiftXor, hshift, Nat.reduceAdd]
  rw [mixShiftXor, Config.mixShift]
  simp only [hcancel]
  rw [hpast, BitVec.xor_zero]

theorem mixShiftXor_bijective : Function.Bijective mixShiftXor :=
  Finite.injective_iff_bijective.mp (Function.LeftInverse.injective unshiftXor_mixShiftXor)

theorem mix_bijective : Function.Bijective mix :=
  bswap32_involutive.bijective.comp (mixShiftXor_bijective.comp mixProduct_bijective)

/-! ## Zero -/

theorem mix_zero : mix 0 = 0 := by decide

/-- Zero bytes leave a zero state alone: every word folded is 0, and `mix` fixes 0 (R103). -/
theorem hash32_replicate_zero (k : Nat) : hash32 (List.replicate k 0) 0 = 0 := by
  match k with
  | 0 => rfl
  | 1 => exact (hash32_tail1 0 0).trans mix_zero
  | 2 => exact (hash32_tail2 0 0 0).trans mix_zero
  | 3 => exact (hash32_tail3 0 0 0 0).trans mix_zero
  | k + 4 =>
    have hword : foldWord 0 (leWord [0, 0, 0, 0]) = 0 := mix_zero
    simp only [List.replicate_succ]
    rw [hash32_fullWord, hword, hash32_replicate_zero k]

/-! ## The tail mask -/

theorem toNat_tailmask (n : BitVec 2) : (tailmask n).toNat = 2 ^ (8 * n.toNat) - 1 := by
  have hle : 2 ^ (8 * n.toNat) ≤ 2 ^ 32 := Nat.pow_le_pow_right (by decide) (by omega)
  have hpos := Nat.two_pow_pos (8 * n.toNat)
  rw [tailmask, BitVec.toNat_ofNat, Nat.mod_eq_of_lt (by omega)]

/-- The mask's low `n` bytes are all ones and its others all zeros. -/
theorem byteOf_tailmask :
    ∀ (n : BitVec 2) (j : Nat), j < 4 → byteOf j (tailmask n) = if j < n.toNat then BitVec.allOnes 8 else 0 := by
  decide

/-- The word a TAIL folds is the low `n` bytes of its operand (R107). -/
theorem tailWord_eq_ofNat_mod (n : BitVec 2) (w : Word) :
    tailWord n w = BitVec.ofNat 32 (w.toNat % 2 ^ (8 * n.toNat)) := by
  rw [← toNat_tailWord, BitVec.ofNat_toNat, BitVec.setWidth_eq]

end Sys2Proof.Machine
end

section
/-! SUPPORT. Runs over command words: what each leaves in `H`, as a function of the command it decodes to
(spec/41_mixer_stream.md R105 to R109). -/

namespace Sys2Proof.Machine

/-- A run executes a command word that is offered first and serves the rest. -/
theorem serve_command {w : CmdWord} {s t : State} (h : runWord w s = .next t) (ms : List HostMove) :
    (s.withInbox (.command w :: ms)).serve = (t.withInbox ms).serve :=
  State.serve_cons (runWord_withInbox h ms) rfl

/-- A run executes the command that the control byte of the first word names, and serves the rest. -/
theorem serve_command_of_controlByte {ctl : Byte} {i : Instr} (hctl : controlByte i = ctl) {s t : State} {d : DWord}
    (h : exec (i.withData d) s = .next t) (ms : List HostMove) :
    (s.withInbox (.command (ctl ++ d) :: ms)).serve = (t.withInbox ms).serve :=
  serve_command ((runWord_of_decode_ok (decode_append_of_controlByte_eq hctl d) s).trans h) ms

/-- DIGESTs in a row leave `H` and all answer it (R108). -/
theorem serve_digests (ds : List DWord) (s : State) :
    ∃ t, (s.withInbox (ds.map fun d => .command (0x70#8 ++ d))).serve = .next t
      ∧ t.h = s.h ∧ t.sent = s.sent ++ List.replicate ds.length (.ok32 s.h) := by
  induction ds generalizing s with
  | nil => exact ⟨_, State.serve_nil s, rfl, (List.append_nil _).symm⟩
  | cons d ds ih =>
    obtain ⟨t, hserve, hh, hsent⟩ := ih (s.respond (.ok32 s.h))
    refine ⟨t, (serve_command_of_controlByte controlByte_digest (exec_digest s) _).trans hserve, hh, ?_⟩
    rw [hsent, State.respond_sent, State.respond_h, List.append_assoc, List.length_cons, List.replicate_succ,
      List.singleton_append]

/-- `H` after a command, from the bound view and the old `H` (R21). -/
def commandH (v : View) (h : Word) : Instr → Word
  | .hash32 seed => (hashView v seed).getD h
  | .seed x => x
  | .absorb w => foldWord h w
  | .tail n w => tailState n w h
  | .bswap32 _ | .bswap64 _ | .digest => h

/-- `H` after a command word, from what it decodes to: an illegal word leaves it (R141). -/
def decodedH (v : View) (h : Word) : Except Illegal Instr → Word
  | .ok i => commandH v h i
  | .error _ => h

theorem exec_h {i : Instr} {s t : State} (h : exec i s = .next t) : t.h = commandH s.buf s.h i := by
  cases i with
  | hash32 seed =>
    obtain ⟨a, ha⟩ := hashView_defined s.buf seed
    rw [exec_next_unique h (exec_hash32_of_hashView ha), commandH, ha]
    rfl
  | bswap32 _ | bswap64 _ | seed _ | absorb _ | tail _ _ | digest =>
    obtain rfl := Host.Outcome.next.inj h
    rfl

/-- A command word completes, writes to `H` what it decodes to, and leaves the view. -/
theorem runWord_h (w : CmdWord) (s : State) :
    ∃ t, runWord w s = .next t ∧ t.h = decodedH s.buf s.h (decode w) ∧ t.buf = s.buf := by
  cases hd : decode w with
  | ok i =>
    obtain ⟨h, r, hexec⟩ := exec_completes i s
    exact ⟨_, (runWord_of_decode_ok hd s).trans hexec, exec_h hexec, rfl⟩
  | error e => exact ⟨_, runWord_of_decode_error hd s, rfl, rfl⟩

/-- A run over command words folds what they decode to into `H`. -/
theorem serve_commands_h (ws : List CmdWord) (s : State) :
    ∃ t, (s.withInbox (ws.map .command)).serve = .next t
      ∧ t.h = ws.foldl (fun h w => decodedH s.buf h (decode w)) s.h := by
  induction ws generalizing s with
  | nil => exact ⟨_, State.serve_nil s, rfl⟩
  | cons w ws ih =>
    obtain ⟨u, hrun, huh, hbuf⟩ := runWord_h w s
    obtain ⟨t, hserve, hth⟩ := ih u
    refine ⟨t, (serve_command hrun _).trans hserve, ?_⟩
    rw [hth, huh, hbuf, List.foldl_cons]

/-- A neutral word leaves `H` (R109). -/
theorem decodedH_of_neutralWord {w : CmdWord} (hw : neutralWord w = true) (v : View) (h : Word) :
    decodedH v h (decode w) = h := by
  rw [neutralWord] at hw
  cases hd : decode w with
  | error e => rfl
  | ok i =>
    rw [hd] at hw
    cases i with
    | bswap32 _ | bswap64 _ | digest => rfl
    | hash32 _ | seed _ | absorb _ | tail _ _ => cases hw

/-- Only the words that are not neutral count for `H` (R109). -/
theorem foldl_decodedH_filter (v : View) (ws : List CmdWord) (h : Word) :
    ws.foldl (fun h w => decodedH v h (decode w)) h
      = ((ws.filter (fun w => !neutralWord w)).map decode).foldl (decodedH v) h := by
  rw [List.foldl_map, List.foldl_filter]
  congr 1
  funext h w
  by_cases hw : neutralWord w = true
  · simp [hw, decodedH_of_neutralWord hw]
  · simp [hw]

/-- ABSORBs fold their words in order (R106). -/
theorem foldl_decodedH_absorbs (v : View) (xs : List Word) (h : Word) :
    (xs.map (fun x => .ok (.absorb x))).foldl (decodedH v) h = xs.foldl (fun h x => mix (h ^^^ x)) h :=
  List.foldl_map

end Sys2Proof.Machine
end

section
/-! The statements about the mixing step and the streaming commands (spec/41_mixer_stream.md R101 to R109). -/

namespace Sys2Proof.Machine

/-- Settles O22: the product and the shift-xor as numbers, and the bytes of the byte swap. -/
theorem mixArithmetic : Obligations.MixArithmetic := by
  intro x
  refine ⟨(mixProduct x).toNat, (mixShiftXor (mixProduct x)).toNat, toNat_mixProduct x, toNat_mixShiftXor _,
    fun j hj => ?_⟩
  rw [mix, byteOf_bswap32 _ hj, toNat_byteOf]

/-- Settles O23: `mix` is a composition of three bijections, and the XOR with either argument is an involution. -/
theorem mixIsBijective : Obligations.MixIsBijective := by
  have hright (w : Word) : Function.Involutive (fun h : Word => h ^^^ w) := fun h => by
    beta_reduce
    rw [BitVec.xor_assoc, BitVec.xor_self, BitVec.xor_zero]
  have hleft (h : Word) : Function.Involutive (fun w : Word => h ^^^ w) := fun w => by
    beta_reduce
    rw [← BitVec.xor_assoc, BitVec.xor_self, BitVec.zero_xor]
  refine ⟨mix_bijective, mixMultiplier_mul_inverse, fun a b hb => ?_, mix_zero, hash32_replicate_zero,
    fun w => mix_bijective.comp (hright w).bijective, fun h => mix_bijective.comp (hleft h).bijective⟩
  rw [hb]
  exact (unshiftXor_mixShiftXor a).symm

/-- Settles O24: a byte of the mask keeps a byte of the word whole or clears it. -/
theorem tailMaskKeepsLowBytes : Obligations.TailMaskKeepsLowBytes := by
  refine fun n => ⟨toNat_tailmask n, fun w j hj => ?_⟩
  rw [byteOf_and, byteOf_tailmask n j hj]
  split
  · exact BitVec.and_allOnes
  · exact BitVec.and_zero

/-- Settles O27: the arm of TAIL, and the decoder's operands for control byte `0x60 + n`. -/
theorem tailCommand : Obligations.TailCommand := by
  refine ⟨fun n w s => ⟨tailState n w s.h, exec_tail n w s, fun hn => ?_, fun hn => ?_⟩,
    fun s rest n d => ⟨tailState n (low32 d) s.h, ?_, fun hn => ?_, fun hn => ?_⟩⟩
  · rw [hn, tailState_zero]
  · rw [tailState_of_ne_zero hn, foldWord_eq, tailWord_eq_ofNat_mod]
  · exact (step_command_of_controlByte (controlByte_tail n 0) s rest d).trans (exec_tail n (low32 d) _)
  · rw [hn, tailState_zero]
  · exact tailState_of_ne_zero hn _ _

/-- Settles O28: the arm of DIGEST, and a run of DIGESTs by induction on its length. -/
theorem digestCommand : Obligations.DigestCommand := by
  refine ⟨exec_digest, fun s rest d => ?_, fun s d k => ?_⟩
  · exact (step_command_of_controlByte controlByte_digest s rest d).trans (exec_digest _)
  · obtain ⟨t, hserve, hh, hsent⟩ := serve_digests ((List.range k).map d) s
    rw [List.map_map] at hserve
    rw [List.length_map, List.length_range] at hsent
    exact ⟨t, hserve, hh, hsent⟩

/-- Settles O29: a run folds what its words decode to, neutral words drop out of the fold, and what remains are the
ABSORBs and the TAIL. -/
theorem streamedState : Obligations.StreamedState := by
  intro s ws xs
  obtain ⟨t, hserve, hh⟩ := serve_commands_h ws s
  rw [foldl_decodedH_filter] at hh
  refine ⟨fun hws => ⟨t, hserve, ?_⟩, fun n x hws => ⟨t, hserve, ?_⟩⟩
  · rw [hh, hws, foldl_decodedH_absorbs]
  · rw [hh, hws, List.foldl_append, foldl_decodedH_absorbs]
    rfl

/-- Settles O25: the arm of SEED, and the DIGEST after it. -/
theorem seedCommand : Obligations.SeedCommand := by
  refine ⟨exec_seed, fun s rest d => ?_, fun s d d' => ?_⟩
  · exact (step_command_of_controlByte (controlByte_seed 0) s rest d).trans (exec_seed (low32 d) _)
  · refine ⟨_, .ok32 (low32 d),
      (serve_command_of_controlByte (controlByte_seed 0) (exec_seed (low32 d) s) _).trans
        (serve_command_of_controlByte controlByte_digest (exec_digest _) []), rfl, ?_⟩
    exact List.append_assoc _ _ _

/-- Settles O26: the arm of ABSORB, and the decoder's operand for control byte `0x50`. -/
theorem absorbCommand : Obligations.AbsorbCommand :=
  ⟨exec_absorb,
    fun s rest d => (step_command_of_controlByte (controlByte_absorb 0) s rest d).trans (exec_absorb (low32 d) _)⟩

end Sys2Proof.Machine
end

section
/-! SUPPORT. `hash32` on byte sequences: little-endian values as sums, the fold over the reads of HASH32, and hashing
a concatenation (spec/42_hash32_fold.md R120, R126). -/

namespace Sys2Proof.Machine

/-! ## Little-endian values -/

/-- A concatenation is its first part, plus its second part moved past it. -/
theorem leNat_append (bs cs : List Byte) : leNat (bs ++ cs) = leNat bs + 2 ^ (8 * bs.length) * leNat cs := by
  induction bs with
  | nil => simp [leNat]
  | cons b bs ih =>
    rw [List.cons_append, leNat, leNat, ih, List.length_cons, Nat.mul_succ, Nat.pow_add]
    ring

/-- Zero bytes at the high end add nothing. -/
theorem leNat_append_replicate_zero (bs : List Byte) (z : Nat) : leNat (bs ++ List.replicate z 0) = leNat bs := by
  have hzero : leNat (List.replicate z 0) = 0 := by
    induction z with
    | zero => rfl
    | succ z ih => rw [List.replicate_succ, leNat, ih]; rfl
  rw [leNat_append, hzero, Nat.mul_zero, Nat.add_zero]

/-- The little-endian value of the first `n` bytes as a sum over their positions (R120); where the sequence is
shorter, the missing bytes count 0. -/
theorem leNat_take_eq_sum (bs : List Byte) (n : Nat) :
    leNat (bs.take n) = ∑ j ∈ Finset.range n, 2 ^ (8 * j) * (bs.getD j 0).toNat := by
  induction n with
  | zero => rfl
  | succ n ih =>
    rw [Finset.sum_range_succ, ← ih, List.take_add_one]
    by_cases hn : n < bs.length
    · rw [List.getElem?_eq_getElem hn, Option.toList_some, leNat_append_singleton, List.length_take_of_le hn.le,
        List.getD_eq_getElem _ _ hn]
    · rw [List.getElem?_eq_none (Nat.le_of_not_lt hn), List.getD_eq_default _ _ (Nat.le_of_not_lt hn)]
      simp

/-- Masking a longer load leaves the tail's word (R104, R120). -/
theorem leWord_append_and_tailmask {tl : List Byte} (hlen : tl.length < 4) (beyond : List Byte) :
    leWord (tl ++ beyond) &&& tailmask (BitVec.ofNat 2 tl.length) = leWord tl := by
  have hdvd : 2 ^ (8 * tl.length) ∣ 2 ^ 32 := Nat.pow_dvd_pow 2 (by omega)
  have hn : (BitVec.ofNat 2 tl.length).toNat = tl.length := Nat.mod_eq_of_lt hlen
  have hlow : leNat (tl ++ beyond) % 2 ^ (8 * tl.length) = leNat tl := by
    rw [leNat_append, Nat.add_mul_mod_self_left, Nat.mod_eq_of_lt (leNat_lt tl)]
  rw [← tailWord, tailWord_eq_ofNat_mod, hn, leWord, BitVec.toNat_ofNat, Nat.mod_mod_of_dvd _ hdvd, hlow, leWord]

/-! ## The fold over the reads -/

/-- The word that a read of HASH32 takes from a byte sequence. -/
def wordOfRead (b : List Byte) (q : BufRead) : Word := leWord ((b.drop q.off).take q.n)

/-- The word of a read as the sum of its bytes (R120). -/
theorem wordOfRead_eq_sum (b : List Byte) (off n : Nat) :
    wordOfRead b ⟨off, n⟩
      = BitVec.ofNat 32 (∑ j ∈ Finset.range n, 2 ^ (8 * j) * (b.getD (off + j) 0).toNat) := by
  have hgetD (j : Nat) : (b.drop off).getD j 0 = b.getD (off + j) 0 := by simp [List.getD_eq_getElem?_getD]
  simp only [wordOfRead, leWord, leNat_take_eq_sum, hgetD]

/-- Four bytes more are one read more, at the front; the others move up by four. -/
theorem hashReads_add_four (len : Nat) :
    hashReads (len + 4) = ⟨0, 4⟩ :: (hashReads len).map (fun q => ⟨q.off + 4, q.n⟩) := by
  simp only [hashReads, Nat.add_div_right _ (Nat.succ_pos 3), Nat.add_mod_right, List.range_succ_eq_map,
    List.map_cons, List.map_map, List.cons_append, List.map_append]
  congr 2
  split <;> rfl

/-- One to three bytes are one read. -/
theorem hashReads_of_lt_four {len : Nat} (hpos : 0 < len) (hlt : len < 4) : hashReads len = [⟨0, len⟩] := by
  simp [hashReads, Nat.div_eq_of_lt hlt, Nat.mod_eq_of_lt hlt, Nat.ne_of_gt hpos]

/-- The digest is the fold of the words that HASH32's reads take, in order (R120, R121). -/
theorem hash32_eq_foldl_hashReads (b : List Byte) (s : Word) :
    hash32 b s = (hashReads b.length).foldl (fun h q => foldWord h (wordOfRead b q)) s := by
  match b with
  | b0 :: b1 :: b2 :: b3 :: rest =>
    rw [hash32_fullWord, hash32_eq_foldl_hashReads rest]
    simp only [List.length_cons, Nat.add_assoc, Nat.reduceAdd]
    rw [hashReads_add_four, List.foldl_cons, List.foldl_map]
    rfl
  | [] => rfl
  | [_] | [_, _] | [_, _, _] =>
    rw [hashReads_of_lt_four (by simp) (by simp)]
    exact hash32_of_length_lt (by simp) (by simp) s

/-! ## Concatenation -/

/-- Hashing goes on from the digest of a whole number of words (R126). -/
theorem hash32_append {a : List Byte} (ha : a.length % 4 = 0) (b : List Byte) (s : Word) :
    hash32 (a ++ b) s = hash32 b (hash32 a s) := by
  match a with
  | [] => rfl
  | a0 :: a1 :: a2 :: a3 :: rest =>
    have hrest : rest.length % 4 = 0 := by
      simp only [List.length_cons] at ha
      omega
    simp only [List.cons_append]
    rw [hash32_fullWord, hash32_append hrest, hash32_fullWord]
  | [_] | [_, _] | [_, _, _] => simp at ha

/-- Only the tail of a sequence meets the bytes appended to it. -/
theorem hash32_append_eq_tailBytes_append (b c : List Byte) (s : Word) :
    hash32 (b ++ c) s = hash32 (tailBytes b ++ c) (hash32 (b.take (4 * (b.length / 4))) s) := by
  have hfull : (b.take (4 * (b.length / 4))).length % 4 = 0 := by
    rw [List.length_take]
    omega
  rw [← hash32_append hfull, tailBytes, ← List.append_assoc, List.take_append_drop]

/-- One to four bytes are hashed by one fold of their little-endian word (R120). -/
theorem hash32_of_length_le_four {tl : List Byte} (hne : tl ≠ []) (hlen : tl.length ≤ 4) (h : Word) :
    hash32 tl h = foldWord h (leWord tl) := by
  rcases Nat.lt_or_eq_of_le hlen with hlt | heq
  · exact hash32_of_length_lt hne hlt h
  · obtain ⟨b0, b1, b2, b3, rfl⟩ := List.length_eq_four.mp heq
    rfl

/-- Zero bytes that stay inside the last partial word do not change the digest (R129). -/
theorem hash32_append_replicate_zero {b : List Byte} {z : Nat} (hb : b.length % 4 ≠ 0)
    (hz : b.length % 4 + z ≤ 4) (s : Word) : hash32 (b ++ List.replicate z 0) s = hash32 b s := by
  have htail : tailBytes b ≠ [] := fun h => hb (by rw [← length_tailBytes, h]; rfl)
  have hlen : (tailBytes b ++ List.replicate z 0).length ≤ 4 := by simpa [length_tailBytes] using hz
  have hword : leWord (tailBytes b ++ List.replicate z 0) = leWord (tailBytes b) := by
    rw [leWord, leNat_append_replicate_zero, leWord]
  have hsplit := hash32_append_eq_tailBytes_append b [] s
  rw [List.append_nil, List.append_nil] at hsplit
  rw [hash32_append_eq_tailBytes_append, hsplit, hash32_of_length_le_four (by simp [htail]) hlen, hword,
    hash32_of_length_le_four htail (by rw [length_tailBytes]; omega)]

/-! ## The seed -/

theorem foldWord_bijective (w : Word) : Function.Bijective (fun h : Word => foldWord h w) := by
  obtain ⟨-, -, -, -, -, hfold, -⟩ := mixIsBijective
  exact hfold w

/-- The digest is a composition of folds of fixed words, each a bijection of the running state (R129). -/
theorem hash32_bijective (b : List Byte) : Function.Bijective (hash32 b) := by
  match b with
  | [] => exact Function.bijective_id
  | b0 :: b1 :: b2 :: b3 :: rest => exact (hash32_bijective rest).comp (foldWord_bijective _)
  | [_] | [_, _] | [_, _, _] => exact foldWord_bijective _

end Sys2Proof.Machine
end

section
/-! SUPPORT. HASH32 on the bound view: its loop of reads computes `hash32` of the view's bytes
(spec/42_hash32_fold.md R121). -/

namespace Sys2Proof.Machine

/-- Inside the view a read answers the little-endian word of its bytes. -/
theorem memRead_eq_wordOfRead {v : View} {q : BufRead} (hq : 1 ≤ q.n ∧ q.n ≤ 4 ∧ q.off + q.n ≤ v.len) :
    ∃ x, memRead v q = some x ∧ x.setWidth 32 = wordOfRead v.bytes q := by
  obtain ⟨hpos, hle, hend⟩ := hq
  have hbytes : (List.range q.n).map (fun j => v.cells.byteAt (q.off + j)) = (v.bytes.drop q.off).take q.n :=
    List.ext_getElem (by simp; omega) fun j _ _ => by simp [View.bytes]
  refine ⟨_, (memRead_eq_some_iff v q _).mpr ⟨⟨hpos, hle, hend⟩, rfl⟩, ?_⟩
  have hlt := leNat_lt ((List.range q.n).map fun j => v.cells.byteAt (q.off + j))
  rw [List.length_map, List.length_range] at hlt
  refine BitVec.eq_of_toNat_eq ?_
  rw [BitVec.toNat_setWidth, BitVec.toNat_ofNat, Nat.mod_eq_of_lt hlt, hbytes, wordOfRead, leWord, BitVec.toNat_ofNat]

/-- Reads inside the view fold the words they take from its bytes. -/
theorem foldReads_eq_foldl {v : View} {qs : List BufRead}
    (hqs : ∀ q ∈ qs, 1 ≤ q.n ∧ q.n ≤ 4 ∧ q.off + q.n ≤ v.len) (a : Word) :
    foldReads v qs a = some (qs.foldl (fun h q => foldWord h (wordOfRead v.bytes q)) a) := by
  induction qs generalizing a with
  | nil => rfl
  | cons q qs ih =>
    obtain ⟨hq, hqs⟩ := List.forall_mem_cons.mp hqs
    obtain ⟨x, hread, hx⟩ := memRead_eq_wordOfRead hq
    rw [foldReads, hread, List.foldl_cons, ← hx]
    exact ih hqs _

/-- The loop of HASH32 computes `hash32` of the view's bytes (R121). -/
theorem hashView_eq_hash32 (v : View) (seed : Word) : hashView v seed = some (hash32 v.bytes seed) := by
  rw [hashView, foldReads_eq_foldl (fun q => extent_of_mem_hashReads), hash32_eq_foldl_hashReads, View.length_bytes]

/-- The arm of HASH32: the digest of the view's bytes goes to `H` and into the response (R121). -/
theorem exec_hash32 (seed : Word) (s : State) :
    exec (.hash32 seed) s
      = .next ((s.writeH (hash32 s.buf.bytes seed)).respond (.ok32 (hash32 s.buf.bytes seed))) :=
  exec_hash32_of_hashView (hashView_eq_hash32 s.buf seed)

/-! ## Runs -/

/-- A run that binds a sequence and hashes it writes and answers the sequence's digest, and serves the rest. -/
theorem serve_bind_hash32 (s : State) (b : List Byte) (seed : Word) (ms : List HostMove) :
    (s.withInbox (.bind b :: issue [.hash32 seed] ++ ms)).serve
      = ((((s.bindView b).writeH (hash32 b seed)).respond (.ok32 (hash32 b seed))).withInbox ms).serve := by
  have hexec := exec_hash32 seed ((s.bindView b).withInbox ms)
  rw [State.withInbox_buf, State.bindView_buf, View.bytes_ofBytes] at hexec
  exact (State.serve_cons (step_bind s b _) rfl).trans (serve_command_encode hexec)

/-- A DIGEST offered last ends the run and answers `H`. -/
theorem serve_digest_last (s : State) :
    (s.withInbox (issue [.digest])).serve = .next ((s.withInbox []).respond (.ok32 s.h)) :=
  serve_command_encode (exec_digest (s.withInbox []))

/-- A TAIL whose word holds a tail, and a DIGEST after it, hash the tail from `H` and answer the digest twice. -/
theorem serve_tail_digest (s : State) {tl : List Byte} {wt : Word} (hlen : tl.length < 4)
    (hb : ∀ j, j < tl.length → some (byteOf j wt) = tl[j]?) :
    (s.withInbox (issue [.tail (BitVec.ofNat 2 tl.length) wt, .digest])).serve
      = .next ((((s.writeH (hash32 tl s.h)).respond (.ok32 (hash32 tl s.h))).withInbox []).respond
          (.ok32 (hash32 tl s.h))) := by
  have hexec := exec_tail (BitVec.ofNat 2 tl.length) wt (s.withInbox (issue [.digest]))
  rw [State.withInbox_h, tailState_eq_hash32 hlen hb] at hexec
  exact (serve_command_encode hexec).trans
    (serve_digest_last ((s.writeH (hash32 tl s.h)).respond (.ok32 (hash32 tl s.h))))

/-- After SEED and the ABSORBs of a sequence, hashing the tail from `H` gives the sequence's digest (R125). -/
theorem serve_seed_absorbs (s : State) (b : List Byte) (seed : Word) (is : List Instr) :
    ∃ (t : State) (rs : List Response),
      (s.withInbox (issue ([.seed seed] ++ absorbs b ++ is))).serve = (t.withInbox (issue is)).serve
      ∧ hash32 (tailBytes b) t.h = hash32 b seed ∧ t.sent = s.sent ++ rs := by
  obtain ⟨t, hserve, hhash, -, rs, hsent⟩ :=
    serve_absorbs b ((s.writeH seed).respond (.ok32 seed)) (issue is)
  refine ⟨t, .ok32 seed :: rs, ?_, hhash, ?_⟩
  · rw [List.append_assoc, List.singleton_append, issue_cons, issue_append, ← hserve]
    exact serve_command_encode (exec_seed seed _)
  · rw [hsent, State.respond_sent, State.writeH_sent, List.append_assoc, List.singleton_append]

end Sys2Proof.Machine
end

section
/-! The statements about hashing a view (spec/42_hash32_fold.md R120 to R129). -/

namespace Sys2Proof.Machine

/-- Settles O32: the fold over the reads gives the index loop; the recursion is the definition's. -/
theorem hashFunctionIsTheIndexLoop : Obligations.HashFunctionIsTheIndexLoop := by
  refine ⟨fun b s => ?_, hash32_nil, fun b s hlen => ?_, fun b s hpos hlen => ?_, fun tl beyond hlen => ?_⟩
  · simp only [hash32_eq_foldl_hashReads, hashReads, List.foldl_append, List.foldl_map, wordOfRead_eq_sum,
      foldWord_eq]
    split
    · rfl
    · rw [List.foldl_cons, List.foldl_nil, wordOfRead_eq_sum]
  · match b with
    | b0 :: b1 :: b2 :: b3 :: rest =>
      rw [← leNat_take_eq_sum]
      rfl
    | [] | [_] | [_, _] | [_, _, _] => simp at hlen
  · rw [← leNat_take_eq_sum, List.take_length]
    exact hash32_of_length_lt (List.ne_nil_of_length_pos hpos) (Nat.lt_succ_of_le hlen) s
  · exact leWord_append_and_tailmask (Nat.lt_succ_of_le hlen) beyond

/-- Settles O33: the arm of HASH32, and the decoder's operand for control byte `0x20`. -/
theorem hashCommand : Obligations.HashCommand :=
  ⟨exec_hash32,
    fun s rest d => (step_command_of_controlByte (controlByte_hash32 0) s rest d).trans (exec_hash32 (low32 d) _)⟩

/-- Settles O34: a view of length 0 has no bytes to hash. -/
theorem emptyViewHashesToTheSeed : Obligations.EmptyViewHashesToTheSeed := by
  refine ⟨hash32_nil, rfl, fun seed s hlen => ?_⟩
  have hbytes : s.buf.bytes = [] := List.length_eq_zero_iff.mp ((View.length_bytes s.buf).trans hlen)
  rw [exec_hash32, hbytes, hash32_nil]
  rfl

/-- Settles O35: after SEED and the ABSORBs only the tail is left to hash, and TAIL hashes it; where there is none,
`H` is the digest already. -/
theorem streamEqualsHash : Obligations.StreamEqualsHash := by
  refine fun s b seed => ⟨fun wt hwt => ?_, fun hfull => ?_, ?_⟩
  · rw [← length_tailBytes] at hwt ⊢
    have hlen : (tailBytes b).length < 4 := by rw [length_tailBytes]; omega
    obtain ⟨t, rs, hserve, hhash, hsent⟩ :=
      serve_seed_absorbs s b seed [.tail (BitVec.ofNat 2 (tailBytes b).length) wt, .digest]
    have hend := serve_tail_digest t hlen hwt
    rw [hhash] at hend
    rw [List.append_assoc _ [_] [_]]
    refine ⟨_, rs ++ [.ok32 (hash32 b seed)], hserve.trans hend, rfl, ?_⟩
    rw [State.respond_sent, State.withInbox_sent, State.respond_sent, State.writeH_sent, hsent,
      List.append_assoc s.sent]
    rfl
  · have hnil : tailBytes b = [] := List.length_eq_zero_iff.mp ((length_tailBytes b).trans hfull)
    obtain ⟨t, rs, hserve, hhash, hsent⟩ := serve_seed_absorbs s b seed [.digest]
    rw [hnil, hash32_nil] at hhash
    refine ⟨_, rs, hserve.trans (serve_digest_last t), hhash, ?_⟩
    rw [State.respond_sent, State.withInbox_sent, hsent, hhash]
    rfl
  · exact ⟨_, serve_bind_hash32 s b seed [], rfl, rfl⟩

/-- Settles O36: each HASH32 writes and answers the digest of its own view, and the second goes on from the
first. -/
theorem chainingThroughTheSeed : Obligations.ChainingThroughTheSeed := by
  refine ⟨fun a b s ha => hash32_append ha b s, fun st a b s ha => ?_, by decide, by decide, by decide, by decide,
    by decide⟩
  refine ⟨_, _, .ok32 (hash32 b (hash32 a s)),
    (serve_bind_hash32 st a s _).trans (serve_bind_hash32 _ b (hash32 a s) []),
    serve_bind_hash32 st (a ++ b) s [], ?_, ?_, ?_⟩
  · exact (hash32_append ha b s).symm
  · exact List.append_assoc _ _ _
  · rw [hash32_append ha]
    rfl

/-- Settles O37: the arms of the three commands name the operand and, for HASH32, the view. -/
theorem statelessCommandsIgnoreH : Obligations.StatelessCommandsIgnoreH := by
  refine fun s s' hbuf => ⟨fun seed => ?_, fun x => ?_, fun x => ?_⟩
  · refine ⟨_, _, .ok32 (hash32 s.buf.bytes seed), exec_hash32 seed s, exec_hash32 seed s', ?_, rfl, ?_⟩
    · rw [State.respond_h, State.writeH_h, hbuf]; rfl
    · rw [hbuf]; rfl
  · exact ⟨_, _, .ok32 (bswap32 x), exec_bswap32 x s, exec_bswap32 x s', rfl, rfl⟩
  · exact ⟨_, _, .ok64 (bswap64 x), exec_bswap64 x s, exec_bswap64 x s', rfl, rfl⟩

/-- Settles O38: hashing is a composition of bijections of the seed, and a zero byte counts exactly when it starts a
new word. -/
theorem seedAndLengthSensitivity : Obligations.SeedAndLengthSensitivity := by
  refine ⟨hash32_bijective, by decide, by decide, by decide, hash32_replicate_zero,
    fun b s z hb hz => hash32_append_replicate_zero hb hz s, by decide, fun b s hb => ?_, by decide, by decide⟩
  have hword : leWord [0] = 0#32 := rfl
  rw [hash32_append hb, hash32_tail1, foldWord_eq, hword, BitVec.xor_zero]

end Sys2Proof.Machine
end

section
/-! SUPPORT. Runs as functions of `H` and the bound view: what a run ends with and which responses it adds depend on
nothing else of the state it begins in (spec/70_reset_and_hazards.md R161, R165; spec/10_state.md R28). -/

namespace Sys2Proof.Machine

/-- A command's effect depends on `H` and the view alone: whatever is offered and was answered, it writes the same
`H` and adds the same response. -/
theorem exec_determined (i : Instr) (h : Word) (v : View) :
    ∃ h' r, ∀ ms sent, exec i ⟨h, v, ms, sent⟩ = .next ⟨h', v, ms, sent ++ [r]⟩ := by
  cases i with
  | bswap32 x => exact ⟨h, _, fun _ _ => exec_bswap32 x _⟩
  | bswap64 x => exact ⟨h, _, fun _ _ => exec_bswap64 x _⟩
  | hash32 seed => exact ⟨hash32 v.bytes seed, .ok32 (hash32 v.bytes seed), fun _ _ => exec_hash32 seed _⟩
  | seed seed => exact ⟨_, _, fun _ _ => exec_seed seed _⟩
  | absorb w => exact ⟨foldWord h w, .ok32 (foldWord h w), fun _ _ => exec_absorb w _⟩
  | tail n w => exact ⟨tailState n w h, .ok32 (tailState n w h), fun _ _ => exec_tail n w _⟩
  | digest => exact ⟨h, .ok32 h, fun _ _ => exec_digest _⟩

/-- The effect of a command word, legal or not, depends on `H` and the view alone. -/
theorem runWord_determined (w : CmdWord) (h : Word) (v : View) :
    ∃ h' r, ∀ ms sent, runWord w ⟨h, v, ms, sent⟩ = .next ⟨h', v, ms, sent ++ [r]⟩ := by
  cases hd : decode w with
  | ok i =>
    obtain ⟨h', r, hexec⟩ := exec_determined i h v
    exact ⟨h', r, fun ms sent => (runWord_of_decode_ok hd _).trans (hexec ms sent)⟩
  | error e => exact ⟨h, _, fun _ _ => runWord_of_decode_error hd _⟩

/-- The effect of a step on any move depends on `H` and the view alone; only a binding changes the view (R26,
log 4). -/
theorem step_determined (m : HostMove) (h : Word) (v : View) :
    ∃ h' v' rs, (m.isBind = false → v' = v)
      ∧ ∀ ms sent, step ⟨h, v, m :: ms, sent⟩ = .next ⟨h', v', ms, sent ++ rs⟩ := by
  cases m with
  | reset =>
    refine ⟨Config.hReset, v, [], fun _ => rfl, fun ms sent => ?_⟩
    rw [List.append_nil]
    rfl
  | bind bytes =>
    refine ⟨h, View.ofBytes bytes, [], nofun, fun ms sent => ?_⟩
    rw [List.append_nil]
    rfl
  | command w =>
    obtain ⟨h', r, hrun⟩ := runWord_determined w h v
    exact ⟨h', v, [r], fun _ => rfl, hrun⟩

/-- The effect of a run over any moves depends on `H` and the view alone; what is offered after them is served from
there (R171). -/
theorem serve_determined (ms : List HostMove) (h : Word) (v : View) :
    ∃ h' v' rs, ((∀ m ∈ ms, m.isBind = false) → v' = v)
      ∧ ∀ ms' sent, (State.mk h v (ms ++ ms') sent).serve = (State.mk h' v' ms' (sent ++ rs)).serve := by
  induction ms generalizing h v with
  | nil => exact ⟨h, v, [], fun _ => rfl, fun ms' sent => by rw [List.append_nil, List.nil_append]⟩
  | cons m ms ih =>
    obtain ⟨h₁, v₁, rs₁, hview₁, hstep⟩ := step_determined m h v
    obtain ⟨h₂, v₂, rs₂, hview₂, hserve⟩ := ih h₁ v₁
    refine ⟨h₂, v₂, rs₁ ++ rs₂, fun hms => ?_, fun ms' sent => ?_⟩
    · obtain ⟨hm, hms⟩ := List.forall_mem_cons.mp hms
      exact (hview₂ hms).trans (hview₁ hm)
    · have hfirst := State.serve_cons (s := ⟨h, v, [], sent⟩) (hstep (ms ++ ms') sent) rfl
      rw [← List.append_assoc, ← hserve]
      exact hfirst

/-- A run takes an assembled DIGEST by answering `H`, and serves the rest (R108). -/
theorem serve_encode_digest (h : Word) (v : View) (ms : List HostMove) (sent : List Response) :
    (State.mk h v (.command (encode .digest) :: ms) sent).serve = (State.mk h v ms (sent ++ [.ok32 h])).serve :=
  serve_command_encode (s := ⟨h, v, ms, sent⟩) (exec_digest _)

/-- A run takes an assembled SEED by writing and answering its operand, and serves the rest (R105). -/
theorem serve_encode_seed (seed h : Word) (v : View) (ms : List HostMove) (sent : List Response) :
    (State.mk h v (.command (encode (.seed seed)) :: ms) sent).serve
      = (State.mk seed v ms (sent ++ [.ok32 seed])).serve :=
  serve_command_encode (s := ⟨h, v, ms, sent⟩) (exec_seed seed _)

/-- A run over any moves ends idle, with `H`, the view and the further responses that `H` and the view at its
beginning determine. -/
theorem serve_all_determined (ms : List HostMove) (h : Word) (v : View) :
    ∃ h' v' rs, ∀ sent, (State.mk h v ms sent).serve = .next ⟨h', v', [], sent ++ rs⟩ := by
  obtain ⟨h', v', rs, -, hserve⟩ := serve_determined ms h v
  refine ⟨h', v', rs, fun sent => ?_⟩
  have hend := hserve [] sent
  rw [List.append_nil] at hend
  exact hend.trans (State.serve_nil ⟨h', v', [], sent ++ rs⟩)

end Sys2Proof.Machine
end

section
/-! The statements about reset and about what may stand between commands (spec/70_reset_and_hazards.md). -/

namespace Sys2Proof.Machine

/-- The view of a byte sequence has its bytes at its offsets and none past its end (R40, R47). -/
theorem View.byte?_ofBytes (bs : List Byte) (off : Nat) : (View.ofBytes bs).byte? off = bs[off]? := by
  rw [View.byte?, View.len_ofBytes, View.byteAt_ofBytes]
  split
  · rw [List.getD_eq_getElem?_getD, List.getElem?_eq_getElem ‹_›, Option.getD_some]
  · exact (List.getElem?_eq_none (Nat.le_of_not_lt ‹_›)).symm

/-- Settles O8: the three arms of `step` that run no command, and the bytes of the view a binding makes. -/
theorem stepOnResetBindAndIdle : Obligations.StepOnResetBindAndIdle := fun s rest =>
  ⟨step_reset s rest,
    fun bytes => ⟨View.ofBytes bytes, View.len_ofBytes bytes, View.byte?_ofBytes bytes, step_bind s bytes rest⟩,
    step_idle s⟩

/-- Settles O40: after the reset both runs have `H = 0` and one view, and these determine the rest. -/
theorem resetForgetsTheState : Obligations.ResetForgetsTheState := by
  intro s s' moves hbuf
  obtain ⟨h, v, rs, hserve⟩ := serve_all_determined moves Config.hReset s.buf
  have hrun := (serve_reset s moves).trans (hserve s.sent)
  rw [hbuf] at hserve
  exact ⟨_, _, rs, hrun, (serve_reset s' moves).trans (hserve s'.sent), rfl, rfl, rfl, rfl⟩

/-- Settles O42: the moves between leave the view, SEED writes back the `H` that DIGEST answered, and `H` and the view
determine what the moves after do. -/
theorem saveAndRestoreAStream : Obligations.SaveAndRestoreAStream := by
  intro s between after hbetween
  obtain ⟨h₁, v₁, mid, hview, hmid⟩ := serve_determined between s.h s.buf
  obtain rfl := hview hbetween
  obtain ⟨h₂, v₂, rs, hafter⟩ := serve_all_determined after s.h s.buf
  have hsaved := serve_encode_digest s.h s.buf (between ++ .command (encode (.seed s.h)) :: after) s.sent
  rw [hmid, serve_encode_seed, hafter] at hsaved
  refine ⟨⟨h₂, v₂, [], s.sent ++ [.ok32 s.h] ++ mid ++ [.ok32 s.h] ++ rs⟩, _, zext64 s.h, mid ++ [.ok32 s.h], rs,
    ?_, hafter s.sent, rfl, rfl, ?_, rfl⟩
  · rw [low32_zext64]
    exact hsaved
  · simp [Response.ok32]

end Sys2Proof.Machine
end
